-- ==== Sys2Proof/Word.lean ====
section
/-! DEFINITION. The word types of the Decimal Core and its fixed parameters (spec/00_scope.md rules R2, R3, R4, R6). -/

namespace Sys2Proof

/-- One mantissa word, a scalar, an immediate or the remainder: WORD_BITS = SCALAR_BITS = REM_BITS = 16 (R2). -/
abbrev Word := BitVec 16

/-- One packed decimal image: IMAGE_BITS = 160 (R3). -/
abbrev Image := BitVec 160

/-- One command word: CMD_BITS = 32 (R4). -/
abbrev Cmd := BitVec 32

/-- MANT_WORDS (R2). -/
abbrev mantWords : Nat := 8

/-- The base of the multi-word integers: 2^WORD_BITS (R2). -/
abbrev wordBase : Nat := 65536

end Sys2Proof
end

