-- ==== Sys2Proof/Syntax.lean ====
section
/-! DEFINITION. The command set: register numbers, field selectors and the eleven commands of spec/opcode_table.json
(spec/30_encoding.md rules R305 to R309), and the pseudo-instructions of rule R314. -/

namespace Sys2Proof

/-- The decimal registers D0 to D3 (R101, R306). -/
inductive DReg where
  | d0 | d1 | d2 | d3
deriving DecidableEq, Repr

/-- The field selectors FS that name a field (R308). FS = 7 names none and has no constructor. -/
inductive Field where
  | exp | len | neg | cmp | rsv | isNaN | ctrl
  /-- `w i` is the selector 8 + i, mantissa word i. -/
  | w (i : Fin 8)
deriving DecidableEq, Repr

/-- One constructor per row of spec/opcode_table.json, with the fields the command uses (R309). -/
inductive Instr where
  /-- ZERO Dd (R411). -/
  | zero (rd : DReg)
  /-- MOV Dd, Ds (R413). -/
  | mov (rd rs : DReg)
  /-- CVTU64 Dd, #e, #n: e is IMM[7:0], n is IMM[8] (R307, R417). -/
  | cvtu64 (rd : DReg) (e : BitVec 8) (n : Bool)
  /-- XFLD Ds, F (R425). -/
  | xfld (rs : DReg) (f : Field)
  /-- SFLD Dd, F (R431). -/
  | sfld (rd : DReg) (f : Field)
  /-- SFLDI Dd, F, #v (R434). -/
  | sfldi (rd : DReg) (f : Field) (v : Word)
  /-- MULS Dd, Ds, #v (R451). -/
  | muls (rd rs : DReg) (v : Word)
  /-- ADDS Dd, Ds, #v (R453). -/
  | adds (rd rs : DReg) (v : Word)
  /-- DIVS Dd, Ds, #v (R455). -/
  | divs (rd rs : DReg) (v : Word)
  /-- ADJE Dd, Ds, #k: k is IMM as two's complement (R307, R458). -/
  | adje (rd rs : DReg) (k : Word)
  /-- COMPACT Dd, Ds (R501). -/
  | compact (rd rs : DReg)
deriving DecidableEq, Repr

/-- The pseudo-instructions (R314): a spelling of a command, not a command of their own. -/
inductive Pseudo where
  | mul10 (d : DReg)
  | div10 (d : DReg)
  | addd (d : DReg) (v : Word)
  | ince (d : DReg)
  | dece (d : DReg)
  | setneg (d : DReg)
  | norm (d : DReg)
deriving DecidableEq, Repr

end Sys2Proof
end

