-- ==== Sys2Proof/WellFormed.lean ====
section
/-! DEFINITION. Which terms of `Instr` the command word can spell as a legal command (spec/30_encoding.md rules R308,
R310). Every operand but the field selector of a composition is legal at every value of its type. -/

namespace Sys2Proof

/-- A field that SFLD and SFLDI may write: every named one but ISNAN, which is read-only (R308). -/
def Field.writable : Field → Bool
  | .isNaN => false
  | .exp | .len | .neg | .cmp | .rsv | .ctrl | .w _ => true

/-- The selector rule of R310 (c): SFLD and SFLDI name a writable field; XFLD may name any field. -/
def Instr.wf : Instr → Bool
  | .sfld _ f => f.writable
  | .sfldi _ f _ => f.writable
  | .zero _ => true
  | .mov _ _ => true
  | .cvtu64 _ _ _ => true
  | .xfld _ _ => true
  | .muls _ _ _ => true
  | .adds _ _ _ => true
  | .divs _ _ _ => true
  | .adje _ _ _ => true
  | .compact _ _ => true

end Sys2Proof
end

