-- ==== Sys2Proof/Decode.lean ====
section
/-! DEFINITION. The command word: its fields, the decoder, total on every 32-bit word and rejecting by name, the encoder,
and the opcode table's match and mask (spec/30_encoding.md rules R305 to R311, spec/opcode_table.json). -/

namespace Sys2Proof

/-- OP = cmd[31:24] (R305). -/
def fieldOp (w : Cmd) : BitVec 8 := w.extractLsb' 24 8

/-- RD = cmd[23:22] (R305). -/
def fieldRd (w : Cmd) : BitVec 2 := w.extractLsb' 22 2

/-- RS = cmd[21:20] (R305). -/
def fieldRs (w : Cmd) : BitVec 2 := w.extractLsb' 20 2

/-- FS = cmd[19:16] (R305). -/
def fieldFs (w : Cmd) : BitVec 4 := w.extractLsb' 16 4

/-- IMM = cmd[15:0] (R305). -/
def fieldImm (w : Cmd) : Word := w.extractLsb' 0 16

/-- IMM[7:0], the exponent of CVTU64 (R307). -/
def immExp (imm : Word) : BitVec 8 := imm.extractLsb' 0 8

/-- IMM[8], the sign of CVTU64 (R307). -/
def immSign (imm : Word) : Bool := imm.getLsbD 8

/-- IMM[15:9], the must-be-zero bits of CVTU64 (R307, R311). -/
def immHigh (imm : Word) : BitVec 7 := imm.extractLsb' 9 7

/-- The register a 2-bit field names: every number names one (R306). -/
def DReg.ofCode (c : BitVec 2) : DReg :=
  if c = 0 then .d0 else if c = 1 then .d1 else if c = 2 then .d2 else .d3

/-- The number of a register (R306). -/
def DReg.code : DReg → BitVec 2
  | .d0 => 0
  | .d1 => 1
  | .d2 => 2
  | .d3 => 3

/-- The field a selector names (R308): none for 7. -/
def Field.ofCode (c : BitVec 4) : Option Field :=
  match c.toNat with
  | 0 => some .exp
  | 1 => some .len
  | 2 => some .neg
  | 3 => some .cmp
  | 4 => some .rsv
  | 5 => some .isNaN
  | 6 => some .ctrl
  | 7 => none
  | 8 => some (.w 0)
  | 9 => some (.w 1)
  | 10 => some (.w 2)
  | 11 => some (.w 3)
  | 12 => some (.w 4)
  | 13 => some (.w 5)
  | 14 => some (.w 6)
  | _ => some (.w 7)

/-- The selector of a field (R308). -/
def Field.code : Field → BitVec 4
  | .exp => 0
  | .len => 1
  | .neg => 2
  | .cmp => 3
  | .rsv => 4
  | .isNaN => 5
  | .ctrl => 6
  | .w i => BitVec.ofNat 4 (8 + i.val)

/-- Why a command word is illegal (R310): which of its three conditions fails first. -/
inductive Reject where
  /-- (a) OP is none of the eleven opcodes. -/
  | unknownOpcode (op : BitVec 8)
  /-- (b) a must-be-zero field is not zero. -/
  | mustBeZero (w : Cmd)
  /-- (c) the field selector names no field, or a read-only one to be written. -/
  | badSelector (fs : BitVec 4)
deriving DecidableEq, Repr

/-- The selector of a composition, SFLD or SFLDI: R310 (c) allows neither 5 nor 7. -/
def selectWritable (fs : BitVec 4) : Except Reject Field :=
  match Field.ofCode fs with
  | some f => if f.writable then .ok f else .error (.badSelector fs)
  | none => .error (.badSelector fs)

/-- The selector of an extraction, XFLD: R310 (c) does not allow 7. -/
def selectReadable (fs : BitVec 4) : Except Reject Field :=
  match Field.ofCode fs with
  | some f => .ok f
  | none => .error (.badSelector fs)

/-- A legal command, if the command's must-be-zero fields are zero (R310 (b), R311). -/
def requireZero (w : Cmd) (mbz : Bool) (i : Except Reject Instr) : Except Reject Instr :=
  if mbz then i else .error (.mustBeZero w)

/-- The eleven opcodes, by name (R309). -/
inductive Opcode where
  | zero | mov | cvtu64 | xfld | sfld | sfldi | muls | adds | divs | adje | compact
deriving DecidableEq, Repr

/-- The value of OP for each opcode (R309). -/
def Opcode.code : Opcode → BitVec 8
  | .zero => 0x01
  | .mov => 0x02
  | .cvtu64 => 0x03
  | .xfld => 0x04
  | .sfld => 0x05
  | .sfldi => 0x06
  | .muls => 0x10
  | .adds => 0x11
  | .divs => 0x12
  | .adje => 0x13
  | .compact => 0x20

/-- The opcode OP selects: every value but these eleven is illegal (R309). -/
def Opcode.ofCode (c : BitVec 8) : Option Opcode :=
  match c.toNat with
  | 0x01 => some .zero
  | 0x02 => some .mov
  | 0x03 => some .cvtu64
  | 0x04 => some .xfld
  | 0x05 => some .sfld
  | 0x06 => some .sfldi
  | 0x10 => some .muls
  | 0x11 => some .adds
  | 0x12 => some .divs
  | 0x13 => some .adje
  | 0x20 => some .compact
  | _ => none

/-- The command of an opcode, from the other fields of the word (R307, R308, R310, R311). -/
def decodeOp (op : Opcode) (w : Cmd) : Except Reject Instr :=
  let rd := DReg.ofCode (fieldRd w)
  let rs := DReg.ofCode (fieldRs w)
  let fs := fieldFs w
  let imm := fieldImm w
  match op with
  | .zero => requireZero w (fieldRs w = 0 ∧ fs = 0 ∧ imm = 0) (.ok (.zero rd))
  | .mov => requireZero w (fs = 0 ∧ imm = 0) (.ok (.mov rd rs))
  | .cvtu64 =>
    requireZero w (fieldRs w = 0 ∧ fs = 0 ∧ immHigh imm = 0) (.ok (.cvtu64 rd (immExp imm) (immSign imm)))
  | .xfld => requireZero w (fieldRd w = 0 ∧ imm = 0) ((selectReadable fs).map (.xfld rs))
  | .sfld => requireZero w (fieldRs w = 0 ∧ imm = 0) ((selectWritable fs).map (.sfld rd))
  | .sfldi => requireZero w (fieldRs w = 0) ((selectWritable fs).map fun f => .sfldi rd f imm)
  | .muls => requireZero w (fs = 0) (.ok (.muls rd rs imm))
  | .adds => requireZero w (fs = 0) (.ok (.adds rd rs imm))
  | .divs => requireZero w (fs = 0) (.ok (.divs rd rs imm))
  | .adje => requireZero w (fs = 0) (.ok (.adje rd rs imm))
  | .compact => requireZero w (fs = 0 ∧ imm = 0) (.ok (.compact rd rs))

/-- The command a word stands for, or which condition of R310 it breaks (R305, R309, R310, R311). -/
def decode (w : Cmd) : Except Reject Instr :=
  match Opcode.ofCode (fieldOp w) with
  | some op => decodeOp op w
  | none => .error (.unknownOpcode (fieldOp w))

/-- The command word with the given fields (R305). -/
def packCmd (op : BitVec 8) (rd rs : BitVec 2) (fs : BitVec 4) (imm : Word) : Cmd :=
  op ++ rd ++ rs ++ fs ++ imm

/-- The immediate of CVTU64: IMM[7:0] the exponent, IMM[8] the sign, IMM[15:9] zero (R307). -/
def packImm (e : BitVec 8) (n : Bool) : Word := (0 : BitVec 7) ++ BitVec.ofBool n ++ e

/-- The opcode of a command (R309). -/
def Instr.opcode : Instr → Opcode
  | .zero _ => .zero
  | .mov _ _ => .mov
  | .cvtu64 _ _ _ => .cvtu64
  | .xfld _ _ => .xfld
  | .sfld _ _ => .sfld
  | .sfldi _ _ _ => .sfldi
  | .muls _ _ _ => .muls
  | .adds _ _ _ => .adds
  | .divs _ _ _ => .divs
  | .adje _ _ _ => .adje
  | .compact _ _ => .compact

/-- The command word of a command (the encodings of R313, must-be-zero fields zero by R311). -/
def encode (i : Instr) : Cmd :=
  match i with
  | .zero rd => packCmd i.opcode.code rd.code 0 0 0
  | .mov rd rs => packCmd i.opcode.code rd.code rs.code 0 0
  | .cvtu64 rd e n => packCmd i.opcode.code rd.code 0 0 (packImm e n)
  | .xfld rs f => packCmd i.opcode.code 0 rs.code f.code 0
  | .sfld rd f => packCmd i.opcode.code rd.code 0 f.code 0
  | .sfldi rd f v => packCmd i.opcode.code rd.code 0 f.code v
  | .muls rd rs v => packCmd i.opcode.code rd.code rs.code 0 v
  | .adds rd rs v => packCmd i.opcode.code rd.code rs.code 0 v
  | .divs rd rs v => packCmd i.opcode.code rd.code rs.code 0 v
  | .adje rd rs k => packCmd i.opcode.code rd.code rs.code 0 k
  | .compact rd rs => packCmd i.opcode.code rd.code rs.code 0 0

/-- The command a pseudo-instruction stands for (R314). -/
def Pseudo.expand : Pseudo → Instr
  | .mul10 d => .muls d d 10
  | .div10 d => .divs d d 10
  | .addd d v => .adds d d v
  | .ince d => .adje d d 1
  | .dece d => .adje d d 0xFFFF
  | .setneg d => .sfldi d .neg 1
  | .norm d => .compact d d

/-- One row of spec/opcode_table.json: a word is the row's where (w AND mask) = match. -/
structure OpcodeRow where
  opcode : BitVec 8
  pattern : Cmd
  mask : Cmd
deriving DecidableEq, Repr

/-- The rows of spec/opcode_table.json, in its order, each with the opcode R309 gives it. -/
def opcodeTable : List OpcodeRow :=
  [ ⟨0x01, 0x01000000, 0xFF3FFFFF⟩,
    ⟨0x02, 0x02000000, 0xFF0FFFFF⟩,
    ⟨0x03, 0x03000000, 0xFF3FFE00⟩,
    ⟨0x04, 0x04000000, 0xFFC0FFFF⟩,
    ⟨0x05, 0x05000000, 0xFF30FFFF⟩,
    ⟨0x06, 0x06000000, 0xFF300000⟩,
    ⟨0x10, 0x10000000, 0xFF0F0000⟩,
    ⟨0x11, 0x11000000, 0xFF0F0000⟩,
    ⟨0x12, 0x12000000, 0xFF0F0000⟩,
    ⟨0x13, 0x13000000, 0xFF0F0000⟩,
    ⟨0x20, 0x20000000, 0xFF0FFFFF⟩ ]

/-- HOST INTERFACE. The command the decoder reads from the bits `w` of a table row: a command is one 32-bit word that the
port hands over whole (R207, R305), so bit 0 of the row is bit 0 of the word. A row of more than 32 bits has no command. -/
def decodeTableWord (nbits w : Nat) : Option Instr :=
  if w % 2 ^ nbits < 2 ^ 32 then
    match decode (BitVec.ofNat 32 (w % 2 ^ nbits)) with
    | .ok i => some i
    | .error _ => none
  else none

end Sys2Proof
end

