-- ==== Sys2Proof/Config.lean ====
section
/-! DEFINITION. What the spec leaves to a draw or to a parameter of the implementation: free values without a body
(spec/20_memory.md rule R205, spec/70_reset_and_hazards.md rule R701, spec/00_scope.md rule R5). -/

namespace Sys2Proof

/-- FREE VALUE (log entry 2, DESIGN CHOICE of the form, not of a value). The n-th draw of an unspecified 160-bit image:
what HostRead of a decimal register answers while its valid bit is clear (R205), and what HostReset leaves in one (R701). -/
opaque Config.unspecifiedImage : Nat → Image

/-- FREE VALUE (log entry 2). The n-th draw of unspecified contents of ARG (R205, R701). -/
opaque Config.unspecifiedArg : Nat → BitVec 64

/-- FREE VALUE (log entry 2). The n-th draw of unspecified contents of REM, of REM's own width (R205, R701). -/
opaque Config.unspecifiedRem : Nat → Word

/-- FREE VALUE (log entry 2). The n-th draw of unspecified contents of FOUT (R205, R701). -/
opaque Config.unspecifiedFout : Nat → BitVec 32

/-- How many hosts drive the port beside the first: the open part of HOST_COUNT (R5; log entry 5). -/
opaque Config.furtherHosts : Nat

/-- HOST_COUNT (R5): at least one host; the default 1 is `furtherHosts` = 0. -/
def Config.hostCount : Nat := Config.furtherHosts + 1

end Sys2Proof
end

