-- ==== Sys2Proof/Machine/State.lean ====
section
/-! DEFINITION. The state of the Decimal Core as plain data: the ten registers and the five valid bits (spec/10_state.md
rules R101 to R114), the host port's pending operations and the host's answers (spec/20_memory.md section 3), and the
few fields of the model's own that carry free values. The block has no memory and no program counter (R112, R201). -/

namespace Sys2Proof.Machine

/-- Four things of one kind, one for each decimal register (R101). -/
structure Bank (α : Type) where
  d0 : α
  d1 : α
  d2 : α
  d3 : α
deriving DecidableEq, Repr

/-- The registers of the host register-id space (R202), by name. -/
inductive HostReg where
  /-- ids 0 to 3 -/
  | d (r : DReg)
  /-- id 4 -/
  | arg
  /-- id 5 -/
  | rem
  /-- id 6 -/
  | fout
  /-- id 7 -/
  | status
  /-- id 8 -/
  | fault
  /-- id 9 -/
  | faultcmd
deriving DecidableEq, Repr

/-- The contents of one whole register, in the width a host operation moves it (R205, R206, R209). -/
inductive HostValue where
  /-- A 160-bit image, of a decimal register. -/
  | image (v : Image)
  /-- 64 bits, of ARG. -/
  | magnitude (v : BitVec 64)
  /-- 32 bits: REM zero-extended, FOUT, STATUS, FAULT, FAULTCMD. -/
  | word (v : BitVec 32)
deriving DecidableEq, Repr

/-- The four host operations (R205 to R208). A register is named by its id, so that an id outside 0 to 9 can be said. -/
inductive HostOp where
  | read (id : Nat)
  | write (id : Nat) (v : HostValue)
  | issue (cmd : Cmd)
  | reset
deriving DecidableEq, Repr

/-- A host operation together with the host that drives it (R212). -/
structure PortOp where
  host : Nat
  op : HostOp
deriving DecidableEq, Repr

/-- What a HostRead returned, and to which host (R205). -/
structure Reply where
  host : Nat
  reg : HostReg
  value : HostValue
deriving DecidableEq, Repr

/-- The whole state. `d` to `faultcmd` and the valid bits are the spec's (R113); the last five fields are the model's
own: what of REM and FOUT has been written since reset (R205; log entry 3), the number of free values drawn so far (log
entry 2), the operations in the order in which the port accepts them (R212; log entry 4), and the answers given (log
entry 6). -/
structure State where
  /-- D0 to D3, 160-bit packed images (R101). -/
  d : Bank Image
  /-- valid(D[0]) to valid(D[3]) (R106). -/
  valid : Bank Bool
  /-- ARG (R107). -/
  arg : BitVec 64
  /-- ARGvalid (R106). -/
  argValid : Bool
  /-- REM (R108). -/
  rem : Word
  /-- FOUT (R109). -/
  fout : BitVec 32
  /-- STATUS: CODE in bits 2:0, zeros above (R110). -/
  status : BitVec 32
  /-- FAULT: CAUSE in bits 3:0, zeros above (R111). -/
  fault : BitVec 32
  /-- FAULTCMD (R111). -/
  faultcmd : Cmd
  /-- MODEL: a DIVS has written REM since reset. -/
  remWritten : Bool
  /-- MODEL: an XFLD has written FOUT since reset. -/
  foutWritten : Bool
  /-- MODEL: how many free values have been drawn. -/
  draws : Nat
  /-- MODEL: the host operations still to be performed, in the port's order; the head is next. -/
  port : List PortOp
  /-- MODEL: the answers of the HostReads performed so far, oldest first. -/
  replies : List Reply
deriving DecidableEq, Repr

/-- Why the machine stops with a fault. NO CONSTRUCTOR: nothing stops this machine so. What the spec calls a fault is a
state the block enters, FAULT with its cause, and goes on from (R604, R605, R611; log entry 8), so it is a next state. -/
inductive Fault : Type
deriving DecidableEq, Repr

/-- Why the model answers with no next state. -/
inductive Refusal where
  /-- An instruction that has no meaning yet. Raised by an arm of `exec` only; no arm does so now. Safe. -/
  | notModelled (mnemonic : String)
  /-- A host operation named a register id outside 0 to 9: it spells no operation of the interface, so the model refuses
  it (R202). Raised by HostRead and HostWrite. Safe: the model stops. -/
  | noSuchRegister (id : Nat)
  /-- A HostWrite of a decimal register or of ARG with a value that is not of the register's whole width: a partial write
  does not exist at this interface (R209; log entry 7). Raised by HostWrite. Safe: the model stops. -/
  | notAWholeRegister (id : Nat)
deriving DecidableEq, Repr

/-- The same thing in each of the four. -/
def Bank.all {α : Type} (x : α) : Bank α := ⟨x, x, x, x⟩

/-- The machine right after power-on (R114, R701): no register valid, STATUS, FAULT and FAULTCMD zero. The spec gives the
contents of D0 to D3, ARG, REM and FOUT no value: zero here (DESIGN CHOICE, log entry 1). No operation pending. -/
def State.reset : State where
  d := Bank.all 0
  valid := Bank.all false
  arg := 0
  argValid := false
  rem := 0
  fout := 0
  status := 0
  fault := 0
  faultcmd := 0
  remWritten := false
  foutWritten := false
  draws := 0
  port := []
  replies := []

end Sys2Proof.Machine
end

