-- ==== Sys2Proof/Machine/Operands.lean ====
section
/-! DEFINITION. The decimal record and its packed image, field access, the integer a mantissa stands for, and the operand
registers of each command (spec/00_scope.md rules R8 to R13, spec/30_encoding.md rules R301 to R304, R307,
spec/40_storage.md rules R402, R426, R430, spec/20_memory.md rules R203, R204, spec/60_exceptions.md rules R606, R607). -/

namespace Sys2Proof.Machine

/-- A decimal record (R8). -/
structure Dec where
  /-- The exponent, signed two's complement. -/
  exp : BitVec 8
  /-- The length, unsigned. -/
  len : BitVec 4
  /-- The sign: true means negative. -/
  neg : Bool
  /-- The compact flag. -/
  cmp : Bool
  /-- The reserved field. -/
  rsv : BitVec 18
  /-- The mantissa words, index 0 the least significant. -/
  w : Vector Word 8
deriving DecidableEq, Repr

/-- The exponent as an integer, -128 to 127 (R2, R8). -/
def Dec.expInt (d : Dec) : Int := d.exp.toInt

/-- ctrl[7:4] length, ctrl[3] sign, ctrl[2] compact flag, ctrl[1:0] reserved[17:16] (R302). -/
def ctrlByte (d : Dec) : BitVec 8 :=
  d.len ++ BitVec.ofBool d.neg ++ BitVec.ofBool d.cmp ++ d.rsv.extractLsb' 16 2

/-- Mantissa word i of an image: P[16*i+47 : 16*i+32] (R303). -/
def imageWord (P : Image) (i : Nat) : Word := P.extractLsb' (32 + 16 * i) 16

/-- The decoder: the record an image holds (R303). -/
def decodeImage (P : Image) : Dec where
  exp := P.extractLsb' 0 8
  len := P.extractLsb' 12 4
  neg := P.getLsbD 11
  cmp := P.getLsbD 10
  rsv := P.extractLsb' 8 2 ++ P.extractLsb' 16 16
  w := #v[imageWord P 0, imageWord P 1, imageWord P 2, imageWord P 3,
          imageWord P 4, imageWord P 5, imageWord P 6, imageWord P 7]

/-- The encoder: the image that holds a record (R301, R304). -/
def encodeImage (d : Dec) : Image :=
  d.w[7] ++ d.w[6] ++ d.w[5] ++ d.w[4] ++ d.w[3] ++ d.w[2] ++ d.w[1] ++ d.w[0]
    ++ d.rsv.extractLsb' 0 16 ++ ctrlByte d ++ d.exp

/-- Byte k of an image, byte 0 the lowest (R203). -/
def imageByte (P : Image) (k : Nat) : BitVec 8 := P.extractLsb' (8 * k) 8

/-- The 32-bit word view W[j] of an image (R204). -/
def imageView (P : Image) (j : Nat) : BitVec 32 := P.extractLsb' (32 * j) 32

/-- The image with the five 32-bit words of R204: how a bus binding puts a whole register together (R209). -/
def imageOfViews (w0 w1 w2 w3 w4 : BitVec 32) : Image := w4 ++ w3 ++ w2 ++ w1 ++ w0

/-- The 32-bit view A[j] of ARG (R204). -/
def argView (a : BitVec 64) (j : Nat) : BitVec 32 := a.extractLsb' (32 * j) 32

/-- The integer a list of words stands for, the least significant first (R9). -/
def wordsValue : List Word → Nat
  | [] => 0
  | x :: xs => x.toNat + wordBase * wordsValue xs

/-- The active words d.w[0] to d.w[d.len - 1] (R9, R105). With a length above 8, which no rule gives a magnitude, all
eight (log entry 12). -/
def Dec.active (d : Dec) : List Word := d.w.toList.take d.len.toNat

/-- mag(d), the sum of the active words by their significance (R9). -/
def Dec.mag (d : Dec) : Nat := wordsValue d.active

/-- The number of base-2^16 digits of v, as far as `fuel` of them. -/
def digitCount : (fuel : Nat) → (v : Nat) → Nat
  | 0, _ => 0
  | k + 1, v => if v = 0 then 0 else digitCount k (v / wordBase) + 1

/-- nwords(v) for v below 2^128: the least L with v < 2^(16*L) (R10). -/
def nwords (v : Nat) : Nat := digitCount mantWords v

/-- isNaN(d): length 0 and negative (R11). -/
def Dec.isNaN (d : Dec) : Bool := d.len = 0 ∧ d.neg = true

/-- The record with words 0 to p.length - 1 replaced by p; the other words stay. -/
def Dec.withWords (d : Dec) (p : List Word) : Dec :=
  { d with w := Vector.ofFn fun i : Fin 8 => p.getD i.val d.w[i] }

/-- The n lowest words of an integer: v[16*i+15 : 16*i] for i in 0 to n-1 (R13). -/
def wordsOf : (n : Nat) → (v : Nat) → List Word
  | 0, _ => []
  | n + 1, v => BitVec.ofNat 16 v :: wordsOf n (v / wordBase)

/-- withMag(d, v, n, L): words 0 to n-1 from v, the length L, everything else as it was (R13). -/
def Dec.withMag (d : Dec) (v n L : Nat) : Dec :=
  { d.withWords (wordsOf n v) with len := BitVec.ofNat 4 L }

/-- Canonical zero: the all-zero image (R411). -/
def Dec.canonicalZero : Dec := ⟨0, 0, false, false, 0, Vector.replicate 8 0⟩

/-- fieldValue(d, F): the exponent sign-extended, every other field zero-extended (R426). -/
def fieldValue (d : Dec) : Field → BitVec 32
  | .exp => d.exp.signExtend 32
  | .len => d.len.setWidth 32
  | .neg => (BitVec.ofBool d.neg).setWidth 32
  | .cmp => (BitVec.ofBool d.cmp).setWidth 32
  | .rsv => d.rsv.setWidth 32
  | .isNaN => if d.isNaN then 1 else 0
  | .ctrl => (ctrlByte d).setWidth 32
  | .w i => d.w[i].setWidth 32

/-- setField(d, F, v): field F takes the low bits of v, no other bit changes (R402, R430). ISNAN is read-only: no command
reaches it here (R308), and it changes nothing. -/
def setField (d : Dec) (f : Field) (v : BitVec 32) : Dec :=
  match f with
  | .exp => { d with exp := v.extractLsb' 0 8 }
  | .len => { d with len := v.extractLsb' 0 4 }
  | .neg => { d with neg := v.getLsbD 0 }
  | .cmp => { d with cmp := v.getLsbD 0 }
  | .rsv => { d with rsv := v.extractLsb' 0 18 }
  | .isNaN => d
  | .ctrl =>
    { d with
      len := v.extractLsb' 4 4
      neg := v.getLsbD 3
      cmp := v.getLsbD 2
      rsv := v.extractLsb' 0 2 ++ d.rsv.extractLsb' 0 16 }
  | .w i => { d with w := d.w.set i (v.extractLsb' 0 16) }

/-- The record CVTU64 builds from a 64-bit magnitude, an exponent and a sign (R417, R418). -/
def decOfMagnitude (a : BitVec 64) (e : BitVec 8) (n : Bool) : Dec where
  exp := e
  len := BitVec.ofNat 4 (nwords a.toNat)
  neg := n
  cmp := false
  rsv := 0
  w := #v[a.extractLsb' 0 16, a.extractLsb' 16 16, a.extractLsb' 32 16, a.extractLsb' 48 16, 0, 0, 0, 0]

/-- The element of a bank that belongs to a decimal register. -/
def Bank.get {α : Type} (b : Bank α) : DReg → α
  | .d0 => b.d0
  | .d1 => b.d1
  | .d2 => b.d2
  | .d3 => b.d3

/-- The bank with one element replaced. -/
def Bank.set {α : Type} (b : Bank α) (r : DReg) (x : α) : Bank α :=
  match r with
  | .d0 => { b with d0 := x }
  | .d1 => { b with d1 := x }
  | .d2 => { b with d2 := x }
  | .d3 => { b with d3 := x }

/-- The image in D[r]. -/
def State.image (s : State) (r : DReg) : Image := s.d.get r

/-- D[r] read as a decimal record (R7, R101). -/
def State.dec (s : State) (r : DReg) : Dec := decodeImage (s.image r)

/-- valid(D[r]) (R106). -/
def State.isValid (s : State) (r : DReg) : Bool := s.valid.get r

/-- An operand register of a command (R106). -/
inductive Source where
  | d (r : DReg)
  | arg
deriving DecidableEq, Repr

/-- The valid bit of an operand register (R106). -/
def State.sourceValid (s : State) : Source → Bool
  | .d r => s.isValid r
  | .arg => s.argValid

/-- The operand registers of each command, in the order in which they are checked (R106, R606, R608). -/
def operandsOf : Instr → List Source
  | .zero _ => []
  | .mov _ rs => [.d rs]
  | .cvtu64 _ _ _ => [.arg]
  | .xfld rs _ => [.d rs]
  | .sfld rd _ => [.d rd, .arg]
  | .sfldi rd _ _ => [.d rd]
  | .muls _ rs _ => [.d rs]
  | .adds _ rs _ => [.d rs]
  | .divs _ rs _ => [.d rs]
  | .adje _ rs _ => [.d rs]
  | .compact _ rs => [.d rs]

/-- The operand whose length a command uses as a word count (R607): of MULS, ADDS, DIVS and COMPACT only. -/
def countedOperand : Instr → Option DReg
  | .muls _ rs _ => some rs
  | .adds _ rs _ => some rs
  | .divs _ rs _ => some rs
  | .compact _ rs => some rs
  | .zero _ => none
  | .mov _ _ => none
  | .cvtu64 _ _ _ => none
  | .xfld _ _ => none
  | .sfld _ _ => none
  | .sfldi _ _ _ => none
  | .adje _ _ _ => none

/-- The register a host register id names (R202). -/
def HostReg.ofId (id : Nat) : Option HostReg :=
  match id with
  | 0 => some (.d .d0)
  | 1 => some (.d .d1)
  | 2 => some (.d .d2)
  | 3 => some (.d .d3)
  | 4 => some .arg
  | 5 => some .rem
  | 6 => some .fout
  | 7 => some .status
  | 8 => some .fault
  | 9 => some .faultcmd
  | _ => none

end Sys2Proof.Machine
end

