-- ==== Sys2Proof/Machine/Flags.lean ====
section
/-! DEFINITION. The two condition codes of the block, STATUS.CODE and FAULT.CAUSE, the only ones it has (spec/10_state.md
rules R110, R111, R113, spec/60_exceptions.md rules R603, R605). -/

namespace Sys2Proof.Machine

/-- CalculationError (R603). No command raises lossOfPrecision. -/
inductive CalcError where
  | noError
  | lossOfPrecision
  | underflow
  | overflow
  | divideByZero
deriving DecidableEq, Repr

/-- The number of a CalculationError in STATUS.CODE (R110, R603). -/
def CalcError.code : CalcError → BitVec 3
  | .noError => 0
  | .lossOfPrecision => 1
  | .underflow => 2
  | .overflow => 3
  | .divideByZero => 4

/-- STATUS with a code: bits 31:3 are zero (R110). -/
def CalcError.status (e : CalcError) : BitVec 32 := e.code.setWidth 32

/-- The causes of a fault (R605). -/
inductive FaultCause where
  | illegalCommand
  | uninitializedOperand
  | invalidLength
deriving DecidableEq, Repr

/-- The number of a fault cause in FAULT.CAUSE (R111, R605). -/
def FaultCause.code : FaultCause → BitVec 4
  | .illegalCommand => 1
  | .uninitializedOperand => 2
  | .invalidLength => 3

/-- FAULT with a cause: bits 31:4 are zero (R111). -/
def FaultCause.fault (c : FaultCause) : BitVec 32 := c.code.setWidth 32

/-- STATUS.CODE = STATUS[2:0] (R110). -/
def State.code (s : State) : BitVec 3 := s.status.extractLsb' 0 3

/-- FAULT.CAUSE = FAULT[3:0] (R111). -/
def State.cause (s : State) : BitVec 4 := s.fault.extractLsb' 0 4

/-- A fault is latched: FAULT.CAUSE is not 0 (R604). -/
def State.faultLatched (s : State) : Bool := s.cause ≠ 0

/-- STATUS.CODE <- code (R110). -/
def State.setCode (s : State) (e : CalcError) : State := { s with status := e.status }

end Sys2Proof.Machine
end

