-- ==== Sys2Proof/Machine/Ops.lean ====
section
/-! DEFINITION. The named operations over the registers: writing a register, drawing a free value, taking a fault and the
one way out of it, and the checks every command passes before its rule is performed (spec/10_state.md rule R106,
spec/30_encoding.md rule R312, spec/60_exceptions.md rules R602 to R608, spec/70_reset_and_hazards.md rule R701). -/

namespace Sys2Proof.Machine

/-- D[r] <- P and valid(D[r]) <- 1 (R106, R206). -/
def State.writeImage (s : State) (r : DReg) (P : Image) : State :=
  { s with d := s.d.set r P, valid := s.valid.set r true }

/-- D[r] <- the record, valid(D[r]) <- 1 (R7, R106). -/
def State.writeDec (s : State) (r : DReg) (x : Dec) : State := s.writeImage r (encodeImage x)

/-- ARG <- a, ARGvalid <- 1 (R106, R206). -/
def State.writeArg (s : State) (a : BitVec 64) : State := { s with arg := a, argValid := true }

/-- REM <- rm, by a successful DIVS (R108). -/
def State.writeRem (s : State) (rm : Word) : State := { s with rem := rm, remWritten := true }

/-- FOUT <- v, by XFLD (R109). -/
def State.writeFout (s : State) (v : BitVec 32) : State := { s with fout := v, foutWritten := true }

/-- The end of a command that succeeds with a record for D[rd]: the register, its valid bit, STATUS noError (R110). -/
def State.succeed (s : State) (rd : DReg) (x : Dec) : State := (s.writeDec rd x).setCode .noError

/-- raise CalcError(code): STATUS.CODE and nothing else (R602). -/
def State.raiseCalc (s : State) (e : CalcError) : State := s.setCode e

/-- The end of a command whose rule either gives a record for D[rd] or fails with one CalculationError (R602, R609). -/
def State.finish (s : State) (rd : DReg) : Except CalcError Dec → State
  | .ok x => s.succeed rd x
  | .error e => s.raiseCalc e

/-- TAKING A FAULT. raise Fault(cause) for the word cmd: FAULT.CAUSE and FAULTCMD, and nothing else (R605, R611). -/
def State.raiseFault (s : State) (c : FaultCause) (cmd : Cmd) : State :=
  { s with fault := c.fault, faultcmd := cmd }

/-- THE RETURN FROM A FAULT, and power-on: HostReset. The valid bits are cleared, STATUS, FAULT and FAULTCMD are zero, the
data registers hold unspecified contents, each a draw (R612, R701; log entry 2). The host's side, the operations still
pending and the answers given, is not the block's and stays (R702). -/
def State.hostReset (s : State) : State :=
  { s with
    d := ⟨Config.unspecifiedImage s.draws, Config.unspecifiedImage (s.draws + 1),
          Config.unspecifiedImage (s.draws + 2), Config.unspecifiedImage (s.draws + 3)⟩
    valid := Bank.all false
    arg := Config.unspecifiedArg s.draws
    argValid := false
    rem := Config.unspecifiedRem s.draws
    fout := Config.unspecifiedFout s.draws
    status := 0
    fault := 0
    faultcmd := 0
    remWritten := false
    foutWritten := false
    draws := s.draws + 4 }

/-- One more free value has been drawn (R205; log entry 2). -/
def State.drawn (s : State) : State := { s with draws := s.draws + 1 }

/-- A HostRead returns a value to a host (R205). -/
def State.answer (s : State) (host : Nat) (r : HostReg) (v : HostValue) : State :=
  { s with replies := s.replies ++ [⟨host, r, v⟩] }

/-- The length check of a command that uses an operand's length as a word count (R607). -/
def State.lengthOk (s : State) : Option DReg → Bool
  | none => true
  | some r => (s.dec r).len.toNat ≤ 8

/-- Execute(cmd) of R312 around the rule of a command, in the priority order of R608: the gate, then ILLEGAL_COMMAND, then
UNINITIALIZED_OPERAND with the operands in their order, then INVALID_LENGTH, then the command's own rule. -/
def State.execute (s : State) (cmd : Cmd) (legal : Bool) (sources : List Source) (counted : Option DReg)
    (rule : State → State) : State :=
  if s.faultLatched then s
  else if !legal then s.raiseFault .illegalCommand cmd
  else if !(sources.all s.sourceValid) then s.raiseFault .uninitializedOperand cmd
  else if !(s.lengthOk counted) then s.raiseFault .invalidLength cmd
  else rule s

end Sys2Proof.Machine
end

