-- ==== Sys2Proof/Machine/Arithmetic.lean ====
section
/-! DEFINITION. The primitive arithmetic commands MULS, ADDS, DIVS and the exponent step ADJE (spec/41_arithmetic.md), as
the word-by-word chains of rules R451, R453 and R455. -/

namespace Sys2Proof.Machine

/-- The carry chain of MULS over the active words, least significant first: the product words and the carry out (R451). -/
def mulChain (s : Word) : List Word → (c : Word) → List Word × Word
  | [], c => ([], c)
  | x :: xs, c =>
    let t := x.toNat * s.toNat + c.toNat
    let (p, c') := mulChain s xs (BitVec.ofNat 16 (t / wordBase))
    (BitVec.ofNat 16 t :: p, c')

/-- The carry chain of ADDS: the first carry in is the scalar (R453). -/
def addChain : List Word → (c : Word) → List Word × Word
  | [], c => ([], c)
  | x :: xs, c =>
    let t := x.toNat + c.toNat
    let (p, c') := addChain xs (BitVec.ofNat 16 (t / wordBase))
    (BitVec.ofNat 16 t :: p, c')

/-- The long division of DIVS, from the most significant word down: the quotient words and the remainder (R455). -/
def divChain (s : Nat) : List Word → List Word × Nat
  | [] => ([], 0)
  | x :: xs =>
    let (q, rm) := divChain s xs
    let t := rm * wordBase + x.toNat
    (BitVec.ofNat 16 (t / s) :: q, t % s)

/-- The length without the zero words at the high end (R455: while L > 0 and q[L-1] = 0, L is L - 1). -/
def trimmedLength : List Word → Nat
  | [] => 0
  | x :: xs =>
    match trimmedLength xs with
    | 0 => if x = 0 then 0 else 1
    | n + 1 => n + 2

/-- The record with its low words and its length replaced and the compact flag cleared: what MULS, ADDS and DIVS write
(R450, R451, R453, R455). -/
def Dec.withResult (d : Dec) (p : List Word) (len : Nat) : Dec :=
  { d.withWords p with len := BitVec.ofNat 4 len, cmp := false }

/-- The end of MULS and of ADDS: a carry out needs one more word, and with 8 words in use that is overflow (R451, R453). -/
def Dec.withCarry (d : Dec) (p : List Word) (c : Word) : Except CalcError Dec :=
  let n := d.len.toNat
  if c = 0 then .ok (d.withResult p n)
  else if n = 8 then .error .overflow
  else .ok (d.withResult (p ++ [c]) (n + 1))

/-- The mantissa multiplied by a scalar, or overflow (R451). -/
def Dec.mulScalar (d : Dec) (s : Word) : Except CalcError Dec :=
  let (p, c) := mulChain s d.active 0
  d.withCarry p c

/-- The mantissa plus a scalar, or overflow (R453). -/
def Dec.addScalar (d : Dec) (s : Word) : Except CalcError Dec :=
  let (p, c) := addChain d.active s
  d.withCarry p c

/-- The quotient and the remainder of the mantissa by a scalar, or divideByZero (R455). -/
def Dec.divScalar (d : Dec) (s : Word) : Except CalcError (Dec × Word) :=
  if s = 0 then .error .divideByZero
  else
    let (q, rm) := divChain s.toNat d.active
    .ok (d.withResult q (trimmedLength q), BitVec.ofNat 16 rm)

/-- The exponent plus a signed step, within -128 to 127, or overflow or underflow (R458). -/
def Dec.stepExp (d : Dec) (k : Word) : Except CalcError Dec :=
  let e := d.expInt + k.toInt
  if e > 127 then .error .overflow
  else if e < -128 then .error .underflow
  else .ok { d with exp := BitVec.ofInt 8 e }

/-- MULS Dd, Ds, #s (R451). -/
def execMuls (rd rs : DReg) (v : Word) (s : State) : Host.Outcome State Fault Refusal :=
  .next (s.execute (encode (.muls rd rs v)) true [.d rs] (some rs) fun s =>
    s.finish rd ((s.dec rs).mulScalar v))

/-- ADDS Dd, Ds, #s (R453). -/
def execAdds (rd rs : DReg) (v : Word) (s : State) : Host.Outcome State Fault Refusal :=
  .next (s.execute (encode (.adds rd rs v)) true [.d rs] (some rs) fun s =>
    s.finish rd ((s.dec rs).addScalar v))

/-- The rule of DIVS: the quotient to D[rd] and the remainder to REM, or divideByZero alone (R455). -/
def State.finishDivision (s : State) (rd : DReg) : Except CalcError (Dec × Word) → State
  | .ok (q, rm) => (s.succeed rd q).writeRem rm
  | .error e => s.raiseCalc e

/-- DIVS Dd, Ds, #s (R455). -/
def execDivs (rd rs : DReg) (v : Word) (s : State) : Host.Outcome State Fault Refusal :=
  .next (s.execute (encode (.divs rd rs v)) true [.d rs] (some rs) fun s =>
    s.finishDivision rd ((s.dec rs).divScalar v))

/-- ADJE Dd, Ds, #k (R458). It does not read the length (R607). -/
def execAdje (rd rs : DReg) (k : Word) (s : State) : Host.Outcome State Fault Refusal :=
  .next (s.execute (encode (.adje rd rs k)) true [.d rs] none fun s =>
    s.finish rd ((s.dec rs).stepExp k))

end Sys2Proof.Machine
end

