-- ==== Sys2Proof/Machine/Normalizer.lean ====
section
/-! DEFINITION. The mantissa normalizer COMPACT (spec/42_normalizer.md). -/

namespace Sys2Proof.Machine

/-- The value with its length reduced to the minimum, a zero magnitude made non-negative and the compact flag set; the NaN
pattern passes through. The incoming compact flag is not read (R501, R503). -/
def Dec.compacted (d : Dec) : Dec :=
  if d.isNaN then d
  else
    let len := nwords d.mag
    { d with len := BitVec.ofNat 4 len, neg := d.neg && len ≠ 0, cmp := true }

/-- COMPACT Dd, Ds (R501). -/
def execCompact (rd rs : DReg) (s : State) : Host.Outcome State Fault Refusal :=
  .next (s.execute (encode (.compact rd rs)) true [.d rs] (some rs) fun s =>
    s.succeed rd (s.dec rs).compacted)

end Sys2Proof.Machine
end

