-- ==== Sys2Proof/Machine/Storage.lean ====
section
/-! DEFINITION. The packed-storage commands ZERO, MOV, CVTU64, XFLD, SFLD and SFLDI (spec/40_storage.md). None raises a
CalculationError and none checks a length (R401). -/

namespace Sys2Proof.Machine

/-- ZERO Dd: canonical zero (R411). -/
def execZero (rd : DReg) (s : State) : Host.Outcome State Fault Refusal :=
  .next (s.execute (encode (.zero rd)) true [] none fun s => s.succeed rd Dec.canonicalZero)

/-- MOV Dd, Ds: the image of D[s], bit for bit (R413). -/
def execMov (rd rs : DReg) (s : State) : Host.Outcome State Fault Refusal :=
  .next (s.execute (encode (.mov rd rs)) true [.d rs] none fun s =>
    (s.writeImage rd (s.image rs)).setCode .noError)

/-- CVTU64 Dd, #e, #n: the record built from ARG (R417). -/
def execCvtu64 (rd : DReg) (e : BitVec 8) (n : Bool) (s : State) : Host.Outcome State Fault Refusal :=
  .next (s.execute (encode (.cvtu64 rd e n)) true [.arg] none fun s => s.succeed rd (decOfMagnitude s.arg e n))

/-- XFLD Ds, F: the field to FOUT (R425). -/
def execXfld (rs : DReg) (f : Field) (s : State) : Host.Outcome State Fault Refusal :=
  .next (s.execute (encode (.xfld rs f)) true [.d rs] none fun s =>
    (s.writeFout (fieldValue (s.dec rs) f)).setCode .noError)

/-- SFLD Dd, F: the field from ARG[31:0] (R431). ISNAN is read-only, so naming it is an illegal command (R308, R310). -/
def execSfld (rd : DReg) (f : Field) (s : State) : Host.Outcome State Fault Refusal :=
  .next (s.execute (encode (.sfld rd f)) f.writable [.d rd, .arg] none fun s =>
    s.succeed rd (setField (s.dec rd) f (s.arg.extractLsb' 0 32)))

/-- SFLDI Dd, F, #v: the field from the zero-extended immediate (R434). ISNAN as in SFLD. -/
def execSfldi (rd : DReg) (f : Field) (v : Word) (s : State) : Host.Outcome State Fault Refusal :=
  .next (s.execute (encode (.sfldi rd f v)) f.writable [.d rd] none fun s =>
    s.succeed rd (setField (s.dec rd) f (v.setWidth 32)))

end Sys2Proof.Machine
end

