-- ==== Sys2Proof/Machine/Dispatch.lean ====
section
/-! DEFINITION. One arm per command: its meaning (spec/30_encoding.md rule R309). -/

namespace Sys2Proof.Machine

def exec (i : Instr) (s : State) : Host.Outcome State Fault Refusal :=
  match i with
  | .zero rd => Sys2Proof.Machine.execZero rd s
  | .mov rd rs => Sys2Proof.Machine.execMov rd rs s
  | .cvtu64 rd e n => Sys2Proof.Machine.execCvtu64 rd e n s
  | .xfld rs f => Sys2Proof.Machine.execXfld rs f s
  | .sfld rd f => Sys2Proof.Machine.execSfld rd f s
  | .sfldi rd f v => Sys2Proof.Machine.execSfldi rd f v s
  | .muls rd rs v => Sys2Proof.Machine.execMuls rd rs v s
  | .adds rd rs v => Sys2Proof.Machine.execAdds rd rs v s
  | .divs rd rs v => Sys2Proof.Machine.execDivs rd rs v s
  | .adje rd rs k => Sys2Proof.Machine.execAdje rd rs k s
  | .compact rd rs => Sys2Proof.Machine.execCompact rd rs s

end Sys2Proof.Machine
end

