-- ==== Sys2Proof/Machine/HostPort.lean ====
section
/-! DEFINITION. The four host operations and the port that performs them one at a time (spec/20_memory.md rules R205 to
R212). -/

namespace Sys2Proof.Machine

/-- Reading the register returns an unspecified value: a decimal register or ARG with its valid bit clear, REM and FOUT
before their first write since reset (R205). -/
def State.unspecified (s : State) : HostReg → Bool
  | .d r => !(s.isValid r)
  | .arg => !s.argValid
  | .rem => !s.remWritten
  | .fout => !s.foutWritten
  | .status => false
  | .fault => false
  | .faultcmd => false

/-- The contents of a register as a HostRead returns them: whole, REM zero-extended to 32 bits (R205). -/
def State.contents (s : State) : HostReg → HostValue
  | .d r => .image (s.image r)
  | .arg => .magnitude s.arg
  | .rem => .word (s.rem.setWidth 32)
  | .fout => .word s.fout
  | .status => .word s.status
  | .fault => .word s.fault
  | .faultcmd => .word s.faultcmd

/-- The n-th draw of a register's width (R205; log entry 2). STATUS, FAULT and FAULTCMD are never unspecified. -/
def drawOf (n : Nat) (s : State) : HostReg → HostValue
  | .d _ => .image (Config.unspecifiedImage n)
  | .arg => .magnitude (Config.unspecifiedArg n)
  | .rem => .word ((Config.unspecifiedRem n).setWidth 32)
  | .fout => .word (Config.unspecifiedFout n)
  | .status => s.contents .status
  | .fault => s.contents .fault
  | .faultcmd => s.contents .faultcmd

/-- HostRead of a named register: the block does not change; an unspecified value is a fresh draw (R205). -/
def State.readReg (s : State) (host : Nat) (r : HostReg) : State :=
  if s.unspecified r then (s.drawn).answer host r (drawOf s.draws s r)
  else s.answer host r (s.contents r)

/-- HostRead(id). An id that names no register is refused (R202, R205). -/
def hostRead (host id : Nat) (s : State) : Host.Outcome State Fault Refusal :=
  match HostReg.ofId id with
  | some r => .next (s.readReg host r)
  | none => .refused (.noSuchRegister id)

/-- HostWrite(id, v). A decimal register takes a 160-bit image and ARG 64 bits, whole, and becomes valid; the other registers
ignore the write; an id that names no register, and a value that is not the whole register, are refused (R202, R206, R209). -/
def hostWrite (id : Nat) (v : HostValue) (s : State) : Host.Outcome State Fault Refusal :=
  match HostReg.ofId id with
  | some (.d r) =>
    match v with
    | .image P => .next (s.writeImage r P)
    | .magnitude _ => .refused (.notAWholeRegister id)
    | .word _ => .refused (.notAWholeRegister id)
  | some .arg =>
    match v with
    | .magnitude a => .next (s.writeArg a)
    | .image _ => .refused (.notAWholeRegister id)
    | .word _ => .refused (.notAWholeRegister id)
  | some .rem => .next s
  | some .fout => .next s
  | some .status => .next s
  | some .fault => .next s
  | some .faultcmd => .next s
  | none => .refused (.noSuchRegister id)

/-- HostIssue(cmd). While a fault is latched the command is not decoded and nothing changes; an illegal word is refused
with the fault ILLEGAL_COMMAND; a legal word is performed (R207, R310, R312, R604). -/
def hostIssue (cmd : Cmd) (s : State) : Host.Outcome State Fault Refusal :=
  if s.faultLatched then .next s
  else
    match decode cmd with
    | .ok i => exec i s
    | .error _ => .next (s.raiseFault .illegalCommand cmd)

/-- One host operation, whole (R205 to R208, R210). -/
def performOp (p : PortOp) (s : State) : Host.Outcome State Fault Refusal :=
  match p.op with
  | .read id => hostRead p.host id s
  | .write id v => hostWrite id v s
  | .issue cmd => hostIssue cmd s
  | .reset => .next s.hostReset

/-- The port accepts the next pending operation and performs it; with none pending the block waits, unchanged (R1, R212;
log entry 4). -/
def portStep (s : State) : Host.Outcome State Fault Refusal :=
  match s.port with
  | [] => .next s
  | p :: rest => performOp p { s with port := rest }

/-- HostIssue of the command word whose low `nbits` bits are those of `w`, put before what is pending. -/
def State.issueNext (s : State) (nbits w : Nat) : State :=
  { s with port := ⟨0, .issue (BitVec.ofNat 32 (w % 2 ^ nbits))⟩ :: s.port }

end Sys2Proof.Machine
end

