-- ==== Sys2Proof/Machine/Step.lean ====
section
/-! DEFINITION. One step: the next host operation of the port's order (spec/20_memory.md rule R212), and the host's way to
make a command the next one. -/

namespace Sys2Proof.Machine

/-- One step of the machine: one host operation (R210, R212). -/
def step (s : State) : Host.Outcome State Fault Refusal := portStep s

/-- HOST INTERFACE. The block fetches nothing (R214): a command comes to it as the data word of a HostIssue. So the word is
placed as the next operation at the port, issued by host 0 (log entry 4). -/
def State.withFetchWord (s : State) (nbits w : Nat) : State := s.issueNext nbits w

end Sys2Proof.Machine
end

