-- ==== Sys2Proof/Machine/Assembler.lean ====
section
/-! DEFINITION. The assembler syntax of spec/30_encoding.md rules R313 and R314: from one line of text to a command. It is
host software; no step of the machine uses it (log entry 13). -/

namespace Sys2Proof.Machine

/-- One operand of an assembler line (R313). -/
inductive AsmArg where
  /-- `D0` to `D3` -/
  | reg (r : DReg)
  /-- `#n`, n decimal, `-n` decimal, or `0x` and hexadecimal digits -/
  | imm (v : Int)
  /-- the name of a field selector (R308) -/
  | fld (f : Field)
deriving DecidableEq, Repr

/-- The parts of a text between separators. -/
def splitText (sep : Char) : List Char → List (List Char)
  | [] => [[]]
  | c :: cs =>
    match splitText sep cs with
    | [] => [[c]]
    | x :: xs => if c = sep then [] :: x :: xs else (c :: x) :: xs

/-- The text without the blanks at its ends. -/
def trimText (t : List Char) : List Char :=
  ((t.dropWhile (· = ' ')).reverse.dropWhile (· = ' ')).reverse

/-- The value of a digit in a base of at most 16. -/
def digitValue (base : Nat) (c : Char) : Option Nat :=
  let n := c.toNat
  let v :=
    if 48 ≤ n ∧ n ≤ 57 then n - 48
    else if 65 ≤ n ∧ n ≤ 70 then n - 55
    else if 97 ≤ n ∧ n ≤ 102 then n - 87
    else 16
  if v < base then some v else none

/-- The number a text of digits spells, with a number already read. -/
def numberFrom (base : Nat) : (acc : Nat) → List Char → Option Nat
  | acc, [] => some acc
  | acc, c :: cs =>
    match digitValue base c with
    | some v => numberFrom base (acc * base + v) cs
    | none => none

/-- The number a text of one or more digits spells. -/
def numberText (base : Nat) : List Char → Option Nat
  | [] => none
  | c :: cs => numberFrom base 0 (c :: cs)

/-- The value of an immediate without its `#` (R313). -/
def immediateText : List Char → Option Int
  | '-' :: ds => (numberText 10 ds).map fun n => -(n : Int)
  | '0' :: 'x' :: hs => (numberText 16 hs).map fun n => (n : Int)
  | ds => (numberText 10 ds).map fun n => (n : Int)

/-- The names of the field selectors (R308). -/
def fieldNames : List (String × Field) :=
  [ ("EXP", .exp), ("LEN", .len), ("NEG", .neg), ("CMP", .cmp), ("RSV", .rsv), ("ISNAN", .isNaN), ("CTRL", .ctrl),
    ("W0", .w 0), ("W1", .w 1), ("W2", .w 2), ("W3", .w 3), ("W4", .w 4), ("W5", .w 5), ("W6", .w 6), ("W7", .w 7) ]

/-- One operand from its text (R313). -/
def argText (t : List Char) : Option AsmArg :=
  match t with
  | ['D', '0'] => some (.reg .d0)
  | ['D', '1'] => some (.reg .d1)
  | ['D', '2'] => some (.reg .d2)
  | ['D', '3'] => some (.reg .d3)
  | '#' :: v => (immediateText v).map .imm
  | _ => (fieldNames.find? fun p => p.1.toList = t).map fun p => .fld p.2

/-- An unsigned immediate of 16 bits: outside 0 to 65535 the assembler rejects it (R313). -/
def unsigned16 (v : Int) : Option Word :=
  if 0 ≤ v ∧ v ≤ 65535 then some (BitVec.ofInt 16 v) else none

/-- A signed immediate of 16 bits, as two's complement: -32768 to 32767 (R313). -/
def signed16 (v : Int) : Option Word :=
  if -32768 ≤ v ∧ v ≤ 32767 then some (BitVec.ofInt 16 v) else none

/-- The exponent of CVTU64: -128 to 127 (R313). -/
def signed8 (v : Int) : Option (BitVec 8) :=
  if -128 ≤ v ∧ v ≤ 127 then some (BitVec.ofInt 8 v) else none

/-- The sign of CVTU64: 0 or 1 (R313). -/
def signBit (v : Int) : Option Bool :=
  if v = 0 then some false else if v = 1 then some true else none

/-- The command of a mnemonic and its operands: the eleven forms of R313 and the seven pseudo-instructions of R314. -/
def assembleForm (mnemonic : String) (args : List AsmArg) : Option Instr :=
  match mnemonic, args with
  | "ZERO", [.reg d] => some (.zero d)
  | "MOV", [.reg d, .reg s] => some (.mov d s)
  | "CVTU64", [.reg d, .imm e, .imm n] => (signed8 e).bind fun e => (signBit n).map fun n => .cvtu64 d e n
  | "XFLD", [.reg s, .fld f] => some (.xfld s f)
  | "SFLD", [.reg d, .fld f] => some (.sfld d f)
  | "SFLDI", [.reg d, .fld f, .imm v] => (unsigned16 v).map (.sfldi d f)
  | "MULS", [.reg d, .reg s, .imm v] => (unsigned16 v).map (.muls d s)
  | "ADDS", [.reg d, .reg s, .imm v] => (unsigned16 v).map (.adds d s)
  | "DIVS", [.reg d, .reg s, .imm v] => (unsigned16 v).map (.divs d s)
  | "ADJE", [.reg d, .reg s, .imm k] => (signed16 k).map (.adje d s)
  | "COMPACT", [.reg d, .reg s] => some (.compact d s)
  | "MUL10", [.reg d] => some (Pseudo.mul10 d).expand
  | "DIV10", [.reg d] => some (Pseudo.div10 d).expand
  | "ADDD", [.reg d, .imm v] => (unsigned16 v).map fun v => (Pseudo.addd d v).expand
  | "INCE", [.reg d] => some (Pseudo.ince d).expand
  | "DECE", [.reg d] => some (Pseudo.dece d).expand
  | "SETNEG", [.reg d] => some (Pseudo.setneg d).expand
  | "NORM", [.reg d] => some (Pseudo.norm d).expand
  | _, _ => none

/-- All the operands, or none if one is not an operand. -/
def argTexts : List (List Char) → Option (List AsmArg)
  | [] => some []
  | t :: ts => (argText (trimText t)).bind fun a => (argTexts ts).map fun as => a :: as

/-- The command of one line `MNEMONIC operands`, the operands separated by commas (R313). -/
def assemble (line : String) : Option Instr :=
  let t := trimText line.toList
  let mnemonic := t.takeWhile (· ≠ ' ')
  let operands := t.dropWhile (· ≠ ' ')
  (argTexts (splitText ',' operands)).bind (assembleForm (String.ofList mnemonic))

end Sys2Proof.Machine
end

