-- ==== Sys2Proof/Machine/Number.lean ====
section
/-! DEFINITION. The number a decimal record stands for, and when two are equal: terms for claims, no command computes them
(spec/00_scope.md rule R12, spec/42_normalizer.md rule R506). -/

namespace Sys2Proof.Machine

/-- value(d) = sign * mag(d) * 10^exp, of a record that is not NaN and has a length of at most 8 (R12). -/
def Dec.value (d : Dec) : Option ℚ :=
  if d.isNaN ∨ 8 < d.len.toNat then none
  else some ((if d.neg then -1 else 1) * (d.mag : ℚ) * (10 : ℚ) ^ d.expInt)

/-- The triple the source compares: sign, exponent and normalized mantissa, that is mag() after COMPACT (R506). -/
def Dec.triple (d : Dec) : Bool × Int × Nat :=
  (d.compacted.neg, d.compacted.expInt, d.compacted.mag)

/-- Equality as a host decides it: the triples match after normalization (R506). -/
def Dec.sameDecimal (a b : Dec) : Bool := a.triple = b.triple

end Sys2Proof.Machine
end

