-- ==== Sys2Proof/Safety.lean ====
section
/-! DEFINITION. What the claims speak of: when a command is ready to run, the registers' standing promises, and the run of
the port's operations (spec/10_state.md rules R110, R111, spec/60_exceptions.md section 3, spec/20_memory.md rule R212). -/

namespace Sys2Proof.Machine

/-- The command passes every check of R312: no fault is latched, it is a legal command, its operand registers are valid and
the operand it counts words of has a length of at most 8 (R606, R607, R608). -/
def Ready (i : Instr) (s : State) : Prop :=
  s.faultLatched = false ∧ i.wf = true ∧ (∀ x ∈ operandsOf i, s.sourceValid x = true) ∧
    ∀ r ∈ countedOperand i, (s.dec r).len.toNat ≤ 8

/-- STATUS holds a code that some command writes: 0, 2, 3 or 4, with zeros above (R110, R603). -/
def State.statusLegal (s : State) : Prop :=
  ∃ e : CalcError, e ≠ .lossOfPrecision ∧ s.status = e.status

/-- The word in FAULTCMD accounts for the cause in FAULT (R605): an illegal word; a legal command that reads a register; a
legal command that counts words. -/
def FaultCause.explainedBy (c : FaultCause) (cmd : Cmd) : Prop :=
  match c with
  | .illegalCommand => ∃ e, decode cmd = .error e
  | .uninitializedOperand => ∃ i, decode cmd = .ok i ∧ operandsOf i ≠ []
  | .invalidLength => ∃ i, decode cmd = .ok i ∧ (countedOperand i).isSome = true

/-- FAULT and FAULTCMD are both zero, or hold one cause and a word that accounts for it (R111, R605). -/
def State.faultLegal (s : State) : Prop :=
  (s.fault = 0 ∧ s.faultcmd = 0) ∨ ∃ c : FaultCause, s.fault = c.fault ∧ c.explainedBy s.faultcmd

/-- Every pending operation is driven by one of the HOST_COUNT hosts (R5, R212). -/
def State.hostsKnown (s : State) : Prop := ∀ p ∈ s.port, p.host < Config.hostCount

/-- The standing promises of the control registers (R110, R111) and of the port (R212). -/
def State.Inv (s : State) : Prop := s.statusLegal ∧ s.faultLegal ∧ s.hostsKnown

/-- The host has brought the block up by R703: every register it may read holds a value. -/
def State.booted (s : State) : Prop := s.valid = Bank.all true ∧ s.argValid = true

/-- A run of image bits that belongs to a field: its lowest image bit, its width, and the bit of the field it starts at. -/
structure FieldSlot where
  imageLow : Nat
  width : Nat
  fieldLow : Nat
deriving DecidableEq, Repr

/-- Where each field lies in the packed image (R301, R302). ISNAN lies nowhere. -/
def fieldSlots : Field → List FieldSlot
  | .exp => [⟨0, 8, 0⟩]
  | .len => [⟨12, 4, 0⟩]
  | .neg => [⟨11, 1, 0⟩]
  | .cmp => [⟨10, 1, 0⟩]
  | .rsv => [⟨16, 16, 0⟩, ⟨8, 2, 16⟩]
  | .isNaN => []
  | .ctrl => [⟨8, 8, 0⟩]
  | .w i => [⟨32 + 16 * i.val, 16, 0⟩]

/-- Bit k of the image P with field f replaced by the value v: a bit of v where the field lies, else P's own (R430). -/
def composedBit (P : Image) (f : Field) (v : BitVec 32) (k : Nat) : Bool :=
  match (fieldSlots f).find? fun sl => sl.imageLow ≤ k ∧ k < sl.imageLow + sl.width with
  | some sl => v.getLsbD (sl.fieldLow + (k - sl.imageLow))
  | none => P.getLsbD k

/-- The operations of a list, one after another, on the block alone: what R212 says the port's order means. -/
def performAll : List PortOp → State → Host.Outcome State Fault Refusal
  | [], s => .next s
  | p :: ps, s =>
    match performOp p s with
    | .next s' => performAll ps s'
    | .fault r => .fault r
    | .refused r => .refused r

/-- The order keeps each host's own order (R212): the operations of host h stand in it as `programs` lists them. -/
def interleaves (programs : List (List HostOp)) (order : List PortOp) : Prop :=
  (∀ p ∈ order, p.host < programs.length) ∧
    ∀ h, (order.filter (·.host = h)).map (·.op) = programs.getD h []

end Sys2Proof.Machine
end

