-- ==== Sys2Proof/Certificates/Slice0/Obligations.lean ====
section
/-! DEFINITION. The statements about the Decimal Core, each from the rules its docstring names. A statement of an
instruction's result is an equation: the next state is the state before with exactly the named registers replaced, so every
other register, valid bit, pending operation and answer is unchanged. The block has no memory (R201) and no program counter
(R112), so no statement speaks of a byte of memory. -/

open Sys2Proof Sys2Proof.Machine

/-! ## Encoding -/

/-- Every well-formed command, with every operand at every value, is read back from its word (30_encoding.md sections 2 to
6). -/
def Obligations.DecodeInvertsEncode : Prop :=
  ∀ i : Instr, i.wf = true → decode (encode i) = .ok i

/-- A word that decodes is the word of the command it decodes to, so each command has one word and no bit is dropped; what
it decodes to is well formed. -/
def Obligations.EncodeInvertsDecode : Prop :=
  ∀ (w : Cmd) (i : Instr), decode w = .ok i → encode i = w ∧ i.wf = true

/-- R310: a word is legal exactly when it has one of the eleven opcodes, agrees with its row's mask and match, and its
selector is allowed; performing any other word, with the gate open, raises ILLEGAL_COMMAND and changes nothing else. -/
def Obligations.WordLegalExactlyByTable : Prop :=
  ∀ w : Cmd,
    ((∃ i, decode w = .ok i) ↔
      ∃ row ∈ opcodeTable, fieldOp w = row.opcode ∧ w &&& row.mask = row.pattern ∧
        (row.opcode = 0x04 → fieldFs w ≠ 7) ∧
        (row.opcode = 0x05 ∨ row.opcode = 0x06 → fieldFs w ≠ 5 ∧ fieldFs w ≠ 7)) ∧
    ((∀ i, decode w ≠ .ok i) → ∀ (s : State) (h : Nat) (rest : List PortOp),
      s.port = ⟨h, .issue w⟩ :: rest → s.faultLatched = false →
        step s = .next { s with port := rest, fault := 0x00000001, faultcmd := w }) ∧
    (0x80 ≤ (fieldOp w).toNat → ∀ i, decode w ≠ .ok i) ∧
    (w = 0x00000000 ∨ w = 0xFFFFFFFF → ∀ i, decode w ≠ .ok i)

/-- R311: the must-be-zero fields of each command are those listed, and no other field of it must be zero. -/
def Obligations.MustBeZeroFieldsAreThese : Prop :=
  ∀ w : Cmd,
    (fieldOp w = 0x01 → ((∃ i, decode w = .ok i) ↔ fieldRs w = 0 ∧ fieldFs w = 0 ∧ fieldImm w = 0)) ∧
    (fieldOp w = 0x02 → ((∃ i, decode w = .ok i) ↔ fieldFs w = 0 ∧ fieldImm w = 0)) ∧
    (fieldOp w = 0x03 →
      ((∃ i, decode w = .ok i) ↔ fieldRs w = 0 ∧ fieldFs w = 0 ∧ (fieldImm w).toNat / 2 ^ 9 = 0)) ∧
    (fieldOp w = 0x04 → fieldFs w ≠ 7 → ((∃ i, decode w = .ok i) ↔ fieldRd w = 0 ∧ fieldImm w = 0)) ∧
    (fieldOp w = 0x05 → fieldFs w ≠ 5 → fieldFs w ≠ 7 →
      ((∃ i, decode w = .ok i) ↔ fieldRs w = 0 ∧ fieldImm w = 0)) ∧
    (fieldOp w = 0x06 → fieldFs w ≠ 5 → fieldFs w ≠ 7 → ((∃ i, decode w = .ok i) ↔ fieldRs w = 0)) ∧
    (fieldOp w = 0x10 ∨ fieldOp w = 0x11 ∨ fieldOp w = 0x12 ∨ fieldOp w = 0x13 →
      ((∃ i, decode w = .ok i) ↔ fieldFs w = 0)) ∧
    (fieldOp w = 0x20 → ((∃ i, decode w = .ok i) ↔ fieldFs w = 0 ∧ fieldImm w = 0))

/-- A few words written out from R313's forms stand for the commands they name. -/
def Obligations.SampleWordsDecode : Prop :=
  decode 0x01800000 = .ok (.zero .d2) ∧
  decode 0x02400000 = .ok (.mov .d1 .d0) ∧
  decode 0x034001FE = .ok (.cvtu64 .d1 0xFE true) ∧
  decode 0x042B0000 = .ok (.xfld .d2 (.w 3)) ∧
  decode 0x05C40000 = .ok (.sfld .d3 .rsv) ∧
  decode 0x06020001 = .ok (.sfldi .d0 .neg 1) ∧
  decode 0x1040000A = .ok (.muls .d1 .d0 10) ∧
  decode 0x11500001 = .ok (.adds .d1 .d1 1) ∧
  decode 0x12900007 = .ok (.divs .d2 .d1 7) ∧
  decode 0x1300FF81 = .ok (.adje .d0 .d0 0xFF81) ∧
  decode 0x20800000 = .ok (.compact .d2 .d0)

/-- A step with a legal word issued at the port is the command's meaning, on the state without that operation (R207, R312);
with any operation at the port it is that operation, performed whole; with none pending the block waits, which is the
model's choice of a step (log entry 4). -/
def Obligations.StepRunsTheIssuedCommand : Prop :=
  (∀ (s : State) (h : Nat) (w : Cmd) (rest : List PortOp) (i : Instr),
    s.port = ⟨h, .issue w⟩ :: rest → decode w = .ok i → step s = exec i { s with port := rest }) ∧
  (∀ (s : State) (p : PortOp) (rest : List PortOp), s.port = p :: rest → step s = performOp p { s with port := rest }) ∧
  ∀ s : State, s.port = [] → step s = .next s

/-- A table word placed by the host's interface is the command that the very next step runs (log entry 4). -/
def Obligations.PlacedTableWordRunsNext : Prop :=
  ∀ (s : State) (nbits w : Nat) (i : Instr),
    decodeTableWord nbits w = some i → step (s.withFetchWord nbits w) = exec i s

/-- R313: the operand texts (an immediate in decimal, negative or hexadecimal, a register, a field name), a line cut into its
mnemonic and its operands, and each of the eleven forms: the command it encodes, and for an immediate outside its range no
command at all, not a truncated one. That a comma needs no blank after it, and that hexadecimal letters may be of either
case, is the model's reading of R313 (log entry 13). -/
def Obligations.AssemblerReadsTheFormsInRange : Prop :=
  (∀ n : Nat,
    immediateText (Nat.toDigits 10 n) = some (n : Int) ∧
    immediateText ('-' :: Nat.toDigits 10 n) = some (-(n : Int)) ∧
    immediateText ('0' :: 'x' :: Nat.toDigits 16 n) = some (n : Int) ∧
    immediateText ('0' :: 'x' :: (Nat.toDigits 16 n).map Char.toUpper) = some (n : Int)) ∧
  (∀ text : List Char, argText ('#' :: text) = (immediateText text).map .imm) ∧
  (∀ r : DReg, argText ['D', Nat.digitChar r.code.toNat] = some (.reg r)) ∧
  (∀ i : Fin 8, argText ['W', Nat.digitChar i.val] = some (.fld (.w i))) ∧
  argText "EXP".toList = some (.fld .exp) ∧ argText "LEN".toList = some (.fld .len) ∧
  argText "NEG".toList = some (.fld .neg) ∧ argText "CMP".toList = some (.fld .cmp) ∧
  argText "RSV".toList = some (.fld .rsv) ∧ argText "ISNAN".toList = some (.fld .isNaN) ∧
  argText "CTRL".toList = some (.fld .ctrl) ∧
  (∀ (mnemonic : List Char) (texts : List (List Char)) (sep : List Char),
    mnemonic ≠ [] → (∀ c ∈ mnemonic, c ≠ ' ') → texts ≠ [] →
    (∀ text ∈ texts, text ≠ [] ∧ ∀ c ∈ text, c ≠ ' ' ∧ c ≠ ',') → sep = [','] ∨ sep = [',', ' '] →
      assemble (String.ofList (mnemonic ++ ' ' :: sep.intercalate texts)) =
        (texts.mapM argText).bind (assembleForm (String.ofList mnemonic))) ∧
  ∀ (d s : DReg) (f : Field) (v e : Int),
    assembleForm "ZERO" [.reg d] = some (.zero d) ∧
    assembleForm "MOV" [.reg d, .reg s] = some (.mov d s) ∧
    assembleForm "XFLD" [.reg s, .fld f] = some (.xfld s f) ∧
    assembleForm "SFLD" [.reg d, .fld f] = some (.sfld d f) ∧
    assembleForm "COMPACT" [.reg d, .reg s] = some (.compact d s) ∧
    (0 ≤ v ∧ v ≤ 65535 → ∃ k : Word, (k.toNat : Int) = v ∧
      assembleForm "SFLDI" [.reg d, .fld f, .imm v] = some (.sfldi d f k) ∧
      assembleForm "MULS" [.reg d, .reg s, .imm v] = some (.muls d s k) ∧
      assembleForm "ADDS" [.reg d, .reg s, .imm v] = some (.adds d s k) ∧
      assembleForm "DIVS" [.reg d, .reg s, .imm v] = some (.divs d s k)) ∧
    (¬ (0 ≤ v ∧ v ≤ 65535) →
      assembleForm "SFLDI" [.reg d, .fld f, .imm v] = none ∧
      assembleForm "MULS" [.reg d, .reg s, .imm v] = none ∧
      assembleForm "ADDS" [.reg d, .reg s, .imm v] = none ∧
      assembleForm "DIVS" [.reg d, .reg s, .imm v] = none) ∧
    (-32768 ≤ v ∧ v ≤ 32767 → ∃ k : Word, k.toInt = v ∧
      assembleForm "ADJE" [.reg d, .reg s, .imm v] = some (.adje d s k)) ∧
    (¬ (-32768 ≤ v ∧ v ≤ 32767) → assembleForm "ADJE" [.reg d, .reg s, .imm v] = none) ∧
    (-128 ≤ e ∧ e ≤ 127 ∧ (v = 0 ∨ v = 1) → ∃ (x : BitVec 8) (n : Bool), x.toInt = e ∧ (n = true ↔ v = 1) ∧
      assembleForm "CVTU64" [.reg d, .imm e, .imm v] = some (.cvtu64 d x n)) ∧
    (¬ (-128 ≤ e ∧ e ≤ 127 ∧ (v = 0 ∨ v = 1)) → assembleForm "CVTU64" [.reg d, .imm e, .imm v] = none)

/-- R314: the seven pseudo-instructions and their expansions, as the assembler reads them. -/
def Obligations.PseudoInstructionsExpand : Prop :=
  ∀ (d : DReg) (v : Int),
    assembleForm "MUL10" [.reg d] = assembleForm "MULS" [.reg d, .reg d, .imm 10] ∧
    assembleForm "DIV10" [.reg d] = assembleForm "DIVS" [.reg d, .reg d, .imm 10] ∧
    assembleForm "ADDD" [.reg d, .imm v] = assembleForm "ADDS" [.reg d, .reg d, .imm v] ∧
    assembleForm "INCE" [.reg d] = assembleForm "ADJE" [.reg d, .reg d, .imm 1] ∧
    assembleForm "DECE" [.reg d] = assembleForm "ADJE" [.reg d, .reg d, .imm (-1)] ∧
    assembleForm "SETNEG" [.reg d] = assembleForm "SFLDI" [.reg d, .fld .neg, .imm 1] ∧
    assembleForm "NORM" [.reg d] = assembleForm "COMPACT" [.reg d, .reg d]

/-! ## The packed image and the words of a mantissa -/

/-- R303: the decoder's fields, as numbers cut out of the image. -/
def Obligations.DecoderReadsEachField : Prop :=
  ∀ P : Image,
    let d := decodeImage P
    d.expInt = (if P.toNat % 256 < 128 then (P.toNat % 256 : Int) else (P.toNat % 256 : Int) - 256) ∧
    d.len.toNat = P.toNat / 2 ^ 12 % 16 ∧
    (d.neg = true ↔ P.toNat / 2 ^ 11 % 2 = 1) ∧
    (d.cmp = true ↔ P.toNat / 2 ^ 10 % 2 = 1) ∧
    d.rsv.toNat = P.toNat / 2 ^ 8 % 4 * 2 ^ 16 + P.toNat / 2 ^ 16 % 2 ^ 16 ∧
    ∀ i : Fin 8, d.w[i].toNat = P.toNat / 2 ^ (16 * i.val + 32) % 2 ^ 16

/-- R304: the encoder's fields, and the images and the records in one-to-one correspondence. -/
def Obligations.ImagesAndRecordsCorrespond : Prop :=
  (∀ d : Dec,
    (encodeImage d).extractLsb' 0 8 = d.exp ∧
    (encodeImage d).extractLsb' 12 4 = d.len ∧
    (encodeImage d).getLsbD 11 = d.neg ∧
    (encodeImage d).getLsbD 10 = d.cmp ∧
    (encodeImage d).extractLsb' 8 2 = d.rsv.extractLsb' 16 2 ∧
    (encodeImage d).extractLsb' 16 16 = d.rsv.extractLsb' 0 16 ∧
    ∀ i : Fin 8, (encodeImage d).extractLsb' (16 * i.val + 32) 16 = d.w[i]) ∧
  (∀ P : Image, encodeImage (decodeImage P) = P) ∧
  (∀ d : Dec, decodeImage (encodeImage d) = d) ∧
  Function.Bijective decodeImage

/-- R204: the 32-bit views of an image and of ARG, and what they hold. -/
def Obligations.WordViewsOfAnImage : Prop :=
  (∀ (P : Image) (j : Nat), j ≤ 4 → (imageView P j).toNat = P.toNat / 2 ^ (32 * j) % 2 ^ 32) ∧
  (∀ d : Dec,
    imageView (encodeImage d) 0 = d.rsv.extractLsb' 0 16 ++ ctrlByte d ++ d.exp ∧
    imageView (encodeImage d) 1 = d.w[1] ++ d.w[0] ∧
    imageView (encodeImage d) 2 = d.w[3] ++ d.w[2] ∧
    imageView (encodeImage d) 3 = d.w[5] ++ d.w[4] ∧
    imageView (encodeImage d) 4 = d.w[7] ++ d.w[6]) ∧
  (∀ P : Image, imageOfViews (imageView P 0) (imageView P 1) (imageView P 2) (imageView P 3) (imageView P 4) = P) ∧
  (∀ a : BitVec 64, (argView a 0).toNat = a.toNat % 2 ^ 32 ∧ (argView a 1).toNat = a.toNat / 2 ^ 32)

/-- R203, R302: the bytes of an image, byte 0 the lowest, each 16-bit unit low byte first, and the four fields of the control
byte. -/
def Obligations.BytesOfAnImage : Prop :=
  (∀ (P : Image) (k : Nat), k ≤ 19 → (imageByte P k).toNat = P.toNat / 2 ^ (8 * k) % 2 ^ 8) ∧
  ∀ d : Dec,
    imageByte (encodeImage d) 0 = d.exp ∧
    imageByte (encodeImage d) 1 = ctrlByte d ∧
    imageByte (encodeImage d) 3 ++ imageByte (encodeImage d) 2 = d.rsv.extractLsb' 0 16 ∧
    (∀ i : Fin 8,
      imageByte (encodeImage d) (5 + 2 * i.val) ++ imageByte (encodeImage d) (4 + 2 * i.val) = d.w[i]) ∧
    (ctrlByte d).extractLsb' 4 4 = d.len ∧ (ctrlByte d).getLsbD 3 = d.neg ∧ (ctrlByte d).getLsbD 2 = d.cmp ∧
    (ctrlByte d).extractLsb' 0 2 = d.rsv.extractLsb' 16 2

/-- R10: nwords is the least length that holds an integer below 2^128. -/
def Obligations.WordCountIsLeast : Prop :=
  (∀ v : Nat, v < 2 ^ 128 → v < 2 ^ (16 * nwords v) ∧ ∀ L, v < 2 ^ (16 * L) → nwords v ≤ L) ∧
  nwords 0 = 0 ∧ nwords 1 = 1 ∧ nwords 0xFFFF = 1 ∧ nwords 0x10000 = 2 ∧ nwords (2 ^ 128 - 1) = 8

/-- R13: withMag replaces words 0 to n - 1 and the length, and nothing else. -/
def Obligations.WithMagReplacesLowWords : Prop :=
  ∀ (d : Dec) (v n L : Nat), v < 2 ^ (16 * n) → n ≤ 8 → L ≤ 15 →
    let r := d.withMag v n L
    (∀ i : Fin 8, r.w[i].toNat = if i.val < n then v / 2 ^ (16 * i.val) % 2 ^ 16 else d.w[i].toNat) ∧
    r.len.toNat = L ∧ r.exp = d.exp ∧ r.neg = d.neg ∧ r.cmp = d.cmp ∧ r.rsv = d.rsv

/-- R430: composing a field replaces the field's own image bits by the low bits of the value and no other bit. -/
def Obligations.ComposingAFieldChangesOnlyIt : Prop :=
  ∀ (P : Image) (f : Field) (v : BitVec 32) (k : Nat), f ≠ .isNaN → k < 160 →
    (encodeImage (setField (decodeImage P) f v)).getLsbD k = composedBit P f v k

/-! ## Packed-storage commands -/

/-- ZERO writes the all-zero image, makes the register valid and STATUS noError, whatever was valid before (R411). -/
def Obligations.ZeroWritesTheZeroImage : Prop :=
  ∀ (rd : DReg) (s : State), s.faultLatched = false →
    exec (.zero rd) s = .next { s with d := s.d.set rd 0, valid := s.valid.set rd true, status := 0 }

/-- MOV copies the whole image, a length above 8 and a NaN pattern included (R413). -/
def Obligations.MovCopiesTheImage : Prop :=
  ∀ (rd rs : DReg) (s : State), s.faultLatched = false → s.isValid rs = true →
    exec (.mov rd rs) s =
      .next { s with d := s.d.set rd (s.d.get rs), valid := s.valid.set rd true, status := 0 }

/-- CVTU64 builds the record of the magnitude in ARG with the least length, the given exponent and sign, the compact flag
and the reserved field 0 (R417). -/
def Obligations.CvtuBuildsFromArg : Prop :=
  ∀ (rd : DReg) (e : BitVec 8) (n : Bool) (s : State), s.faultLatched = false → s.argValid = true →
    ∃ x : Dec,
      exec (.cvtu64 rd e n) s =
        .next { s with d := s.d.set rd (encodeImage x), valid := s.valid.set rd true, status := 0 } ∧
      x.exp = e ∧ x.neg = n ∧ x.cmp = false ∧ x.rsv = 0 ∧
      (∀ i : Fin 8, x.w[i].toNat = s.arg.toNat / 2 ^ (16 * i.val) % 2 ^ 16) ∧
      x.mag = s.arg.toNat ∧ x.len.toNat ≤ 4 ∧
      ∀ L, s.arg.toNat < 2 ^ (16 * L) → x.len.toNat ≤ L

/-- XFLD writes the field, cut out of the image as a number, to FOUT (R425, R426): the exponent as a signed value, the
others as unsigned ones. -/
def Obligations.XfldExtractsTheField : Prop :=
  ∀ (rs : DReg) (f : Field) (s : State), s.faultLatched = false → s.isValid rs = true →
    ∃ v : BitVec 32,
      exec (.xfld rs f) s = .next { s with fout := v, foutWritten := true, status := 0 } ∧
      let P := (s.d.get rs).toNat
      match f with
      | .exp => v.toInt = if P % 256 < 128 then (P % 256 : Int) else (P % 256 : Int) - 256
      | .len => v.toNat = P / 2 ^ 12 % 16
      | .neg => v.toNat = P / 2 ^ 11 % 2
      | .cmp => v.toNat = P / 2 ^ 10 % 2
      | .rsv => v.toNat = P / 2 ^ 8 % 4 * 2 ^ 16 + P / 2 ^ 16 % 2 ^ 16
      | .isNaN => v.toNat = if P / 2 ^ 12 % 16 = 0 ∧ P / 2 ^ 11 % 2 = 1 then 1 else 0
      | .ctrl => v.toNat = P / 2 ^ 8 % 256
      | .w i => v.toNat = P / 2 ^ (32 + 16 * i.val) % 2 ^ 16

/-- SFLD replaces the field's bits by the low bits of ARG and SFLDI by those of the zero-extended immediate; no other bit of
the register changes (R431, R434). -/
def Obligations.SfldAndSfldiComposeTheField : Prop :=
  ∀ (rd : DReg) (f : Field) (s : State), s.faultLatched = false → f ≠ .isNaN → s.isValid rd = true →
    (s.argValid = true → ∃ P : Image,
      exec (.sfld rd f) s = .next { s with d := s.d.set rd P, valid := s.valid.set rd true, status := 0 } ∧
      ∀ k, k < 160 → P.getLsbD k = composedBit (s.d.get rd) f (s.arg.extractLsb' 0 32) k) ∧
    (∀ imm : Word, ∃ P : Image,
      exec (.sfldi rd f imm) s = .next { s with d := s.d.set rd P, valid := s.valid.set rd true, status := 0 } ∧
      ∀ k, k < 160 → P.getLsbD k = composedBit (s.d.get rd) f (imm.setWidth 32) k)

/-- ISNAN is read-only: composing it is the illegal command with FS = 5, whatever is valid (R308, R310, R431, R434). No word
decodes to these two ill-formed terms; the meaning given to the terms is the model's reading, log entry 11. -/
def Obligations.ComposingIsNanIsIllegal : Prop :=
  ∀ (rd : DReg) (imm : Word) (s : State), s.faultLatched = false →
    exec (.sfld rd .isNaN) s =
      .next { s with fault := 1, faultcmd := packCmd 0x05 rd.code 0 5 0 } ∧
    exec (.sfldi rd .isNaN imm) s =
      .next { s with fault := 1, faultcmd := packCmd 0x06 rd.code 0 5 imm }

/-! ## Arithmetic -/

/-- R452: MULS in closed form. -/
def Obligations.MulsClosedForm : Prop :=
  ∀ (rd rs : DReg) (imm : Word) (s : State), Ready (.muls rd rs imm) s →
    let d := s.dec rs
    let n := d.len.toNat
    let v := d.mag * imm.toNat
    let L := if v < 2 ^ (16 * n) then n else n + 1
    exec (.muls rd rs imm) s = .next
      (if 2 ^ 128 ≤ v then { s with status := 3 }
       else { s with
          d := s.d.set rd (encodeImage { d.withMag v L L with cmp := false })
          valid := s.valid.set rd true
          status := 0 }) ∧
    (n < 8 → v < 2 ^ 128) ∧ (v < 2 ^ 128 → L ≤ 8 ∧ v < 2 ^ (16 * L))

/-- R454: ADDS in closed form. -/
def Obligations.AddsClosedForm : Prop :=
  ∀ (rd rs : DReg) (imm : Word) (s : State), Ready (.adds rd rs imm) s →
    let d := s.dec rs
    let n := d.len.toNat
    let v := d.mag + imm.toNat
    let L := if v < 2 ^ (16 * n) then n else n + 1
    exec (.adds rd rs imm) s = .next
      (if 2 ^ 128 ≤ v then { s with status := 3 }
       else { s with
          d := s.d.set rd (encodeImage { d.withMag v L L with cmp := false })
          valid := s.valid.set rd true
          status := 0 }) ∧
    (v < 2 ^ 128 → L ≤ 8 ∧ v < 2 ^ (16 * L))

/-- DIVS in closed form (R455, R456): the integer quotient over all the old words, with the least length, and the integer
remainder; divideByZero, and nothing else, for the divisor 0. -/
def Obligations.DivsClosedForm : Prop :=
  ∀ (rd rs : DReg) (imm : Word) (s : State), Ready (.divs rd rs imm) s →
    let d := s.dec rs
    let q := d.mag / imm.toNat
    exec (.divs rd rs imm) s = .next
      (if imm = 0 then { s with status := 4 }
       else { s with
          d := s.d.set rd (encodeImage { d.withMag q d.len.toNat (nwords q) with cmp := false })
          valid := s.valid.set rd true
          rem := BitVec.ofNat 16 (d.mag % imm.toNat)
          remWritten := true
          status := 0 }) ∧
    (imm ≠ 0 → d.mag % imm.toNat < 2 ^ 16 ∧ q < 2 ^ (16 * d.len.toNat))

/-- R458: ADJE adds the signed step within -128 to 127 and replaces the exponent byte only; beyond the range it writes
overflow or underflow and nothing else. -/
def Obligations.AdjeStepsWithinTheRange : Prop :=
  ∀ (rd rs : DReg) (k : Word) (s : State), s.faultLatched = false → s.isValid rs = true →
    let e := (s.dec rs).expInt + k.toInt
    exec (.adje rd rs k) s = .next
      (if 127 < e then { s with status := 3 }
       else if e < -128 then { s with status := 2 }
       else { s with
          d := s.d.set rd ((s.d.get rs).extractLsb' 8 152 ++ BitVec.ofInt 8 e)
          valid := s.valid.set rd true
          status := 0 })

/-- R457: the integer laws of the three primitives, on the magnitudes read back from the registers, with the sign kept, and
the round trip of a multiplication and a division by the same scalar. -/
def Obligations.ScalarPrimitivesObeyIntegerLaws : Prop :=
  ∀ (rx ry : DReg) (imm : Word) (s : State), s.faultLatched = false → s.isValid ry = true →
    (s.dec ry).len.toNat ≤ 8 →
    let m := (s.dec ry).mag
    let v := imm.toNat
    (∃ t, exec (.muls rx ry imm) s = .next t ∧ t.status ≠ 1 ∧ t.status ≠ 2 ∧
      (m * v < 2 ^ 128 → t.status = 0 ∧ (t.dec rx).mag = m * v ∧ (t.dec rx).neg = (s.dec ry).neg) ∧
      (2 ^ 128 ≤ m * v → t = { s with status := 3 }) ∧
      (t.status = 0 → v ≠ 0 → ∀ rz : DReg, ∃ u, exec (.divs rz rx imm) t = .next u ∧
        (u.dec rz).mag = m ∧ u.rem = 0 ∧ (u.dec rz).len.toNat = nwords m ∧
        ((s.dec ry).len.toNat ≠ nwords m → (u.dec rz).len.toNat < (s.dec ry).len.toNat))) ∧
    (∃ t, exec (.adds rx ry imm) s = .next t ∧ t.status ≠ 1 ∧ t.status ≠ 2 ∧
      (m + v < 2 ^ 128 → t.status = 0 ∧ (t.dec rx).mag = m + v ∧ (t.dec rx).neg = (s.dec ry).neg) ∧
      (2 ^ 128 ≤ m + v → t = { s with status := 3 })) ∧
    (∃ t, exec (.divs rx ry imm) s = .next t ∧ t.status ≠ 1 ∧ t.status ≠ 2 ∧
      (v ≠ 0 → m = v * (t.dec rx).mag + t.rem.toNat ∧ t.rem.toNat < v ∧ (t.dec rx).neg = (s.dec ry).neg))

/-- R456's last sentence: dividing by 10 in place reaches length 0 after at most 39 commands. -/
def Obligations.DivisionByTenEndsIn39Steps : Prop :=
  ∀ (rd : DReg) (h : Nat) (s : State), s.faultLatched = false → s.isValid rd = true → (s.dec rd).len.toNat ≤ 8 →
    ∃ t, performAll (List.replicate 39 ⟨h, .issue (encode (.divs rd rd 10))⟩) s = .next t ∧
      (t.dec rd).len = 0 ∧ t.faultLatched = false

/-- The number a register stands for (R12) is multiplied by the scalar under a MULS that succeeds and by a power of ten
under an ADJE that succeeds. -/
def Obligations.MulsAndAdjeScaleTheNumber : Prop :=
  ∀ (rd rs : DReg) (imm : Word) (s : State), s.faultLatched = false → s.isValid rs = true →
    (s.dec rs).len.toNat ≤ 8 →
    (∃ t, exec (.muls rd rs imm) s = .next t ∧
      (t.status = 0 → (t.dec rd).value = (s.dec rs).value.map (· * (imm.toNat : ℚ)))) ∧
    (∃ t, exec (.adje rd rs imm) s = .next t ∧
      (t.status = 0 → (t.dec rd).value = (s.dec rs).value.map (· * (10 : ℚ) ^ imm.toInt)))

/-! ## The normalizer -/

/-- COMPACT (R501): the least length, a zero magnitude non-negative, the compact flag set, words, exponent and reserved field
as they were; the NaN pattern unchanged. -/
def Obligations.CompactReducesTheLength : Prop :=
  ∀ (rd rs : DReg) (s : State), Ready (.compact rd rs) s →
    let d := s.dec rs
    ∃ r : Dec,
      exec (.compact rd rs) s =
        .next { s with d := s.d.set rd (encodeImage r), valid := s.valid.set rd true, status := 0 } ∧
      (d.len = 0 ∧ d.neg = true → r = d) ∧
      (¬ (d.len = 0 ∧ d.neg = true) →
        r.w = d.w ∧ r.exp = d.exp ∧ r.rsv = d.rsv ∧ r.cmp = true ∧
        (d.mag = 0 → r.neg = false) ∧ (d.mag ≠ 0 → r.neg = d.neg) ∧
        r.mag = d.mag ∧ d.mag < 2 ^ (16 * r.len.toNat) ∧ ∀ L, d.mag < 2 ^ (16 * L) → r.len.toNat ≤ L)

/-- R502: COMPACT of the result of COMPACT is the same image, bit for bit. -/
def Obligations.CompactIsIdempotent : Prop :=
  ∀ (ra rb rc : DReg) (s : State), Ready (.compact rb ra) s →
    ∃ t u, exec (.compact rb ra) s = .next t ∧ exec (.compact rc rb) t = .next u ∧ u.image rc = t.image rb

/-- COMPACT does not change the number a register stands for (R12, R501, R505). -/
def Obligations.CompactKeepsTheNumber : Prop :=
  ∀ (rd rs : DReg) (s : State), Ready (.compact rd rs) s →
    ∃ t, exec (.compact rd rs) s = .next t ∧ (t.dec rd).value = (s.dec rs).value

/-- Equality of two genuine decimals that are not NaN (R506): the same exponent and magnitude, and the same sign where the
magnitude is not zero; the compact flag, the reserved field, the stored length and the words beyond it take no part. -/
def Obligations.EqualityIsOfNormalizedTriples : Prop :=
  ∀ a b : Dec, a.len.toNat ≤ 8 → b.len.toNat ≤ 8 → a.isNaN = false → b.isNaN = false →
    (a.sameDecimal b = true ↔
      a.expInt = b.expInt ∧ a.mag = b.mag ∧ (a.mag ≠ 0 → a.neg = b.neg))

/-- The NaN pattern (R11) in the results of the commands named here, not in all the ways it can arise (R503, log entry 16):
MULS keeps it and makes none, ADDS keeps it under the scalar 0 only, DIVS makes
it from a negative operand whose quotient is zero, COMPACT passes it through and makes none, and CVTU64 makes it from a
negative zero magnitude. -/
def Obligations.WhichResultsAreTheNanPattern : Prop :=
  ∀ (rd rs : DReg) (imm : Word) (s : State), s.faultLatched = false →
    (s.isValid rs = true → (s.dec rs).len.toNat ≤ 8 →
      (∃ t, exec (.muls rd rs imm) s = .next t ∧
        (t.status = 0 → ((t.dec rd).isNaN = true ↔ (s.dec rs).isNaN = true))) ∧
      (∃ t, exec (.adds rd rs imm) s = .next t ∧
        (t.status = 0 → ((t.dec rd).isNaN = true ↔ (s.dec rs).isNaN = true ∧ imm = 0))) ∧
      (∃ t, exec (.divs rd rs imm) s = .next t ∧
        (t.status = 0 → ((t.dec rd).isNaN = true ↔ (s.dec rs).neg = true ∧ (s.dec rs).mag < imm.toNat))) ∧
      (∃ t, exec (.compact rd rs) s = .next t ∧ ((t.dec rd).isNaN = true ↔ (s.dec rs).isNaN = true))) ∧
    (s.argValid = true → ∀ (e : BitVec 8) (n : Bool), ∃ t, exec (.cvtu64 rd e n) s = .next t ∧
      ((t.dec rd).isNaN = true ↔ s.arg = 0 ∧ n = true))

/-- No value that MULS, ADDS, DIVS or COMPACT computes depends on the words beyond the length (R105;
93_implementation_defined.md item 5): under these, two records that agree on everything else give the same error, or results
that agree on everything else. (XFLD, MOV, SFLD and SFLDI handle such words as the bits they are.) -/
def Obligations.WordsBeyondTheLengthTakeNoPart : Prop :=
  ∀ (a b : Dec) (v : Word), a.len.toNat ≤ 8 →
    a.exp = b.exp → a.len = b.len → a.neg = b.neg → a.cmp = b.cmp → a.rsv = b.rsv → a.active = b.active →
    let same := fun x y : Dec =>
      x.exp = y.exp ∧ x.len = y.len ∧ x.neg = y.neg ∧ x.cmp = y.cmp ∧ x.rsv = y.rsv ∧ x.active = y.active
    (match a.mulScalar v, b.mulScalar v with
      | .ok x, .ok y => same x y
      | .error e, .error e' => e = e'
      | _, _ => False) ∧
    (match a.addScalar v, b.addScalar v with
      | .ok x, .ok y => same x y
      | .error e, .error e' => e = e'
      | _, _ => False) ∧
    (match a.divScalar v, b.divScalar v with
      | .ok x, .ok y => same x.1 y.1 ∧ x.2 = y.2
      | .error e, .error e' => e = e'
      | _, _ => False) ∧
    same a.compacted b.compacted

/-! ## What every command keeps -/

/-- R104: no command changes the reserved field but those that name it or build a new value; every other command carries it
from its source to its result. -/
def Obligations.ReservedFieldIsCarried : Prop :=
  ∀ (i : Instr) (s t : State), exec i s = .next t →
    match i with
    | .zero rd => ∀ r, r ≠ rd → t.image r = s.image r
    | .cvtu64 rd _ _ => ∀ r, r ≠ rd → t.image r = s.image r
    | .xfld _ _ => ∀ r, t.image r = s.image r
    | .sfld rd f =>
      (∀ r, r ≠ rd → t.image r = s.image r) ∧ (f ≠ .rsv → f ≠ .ctrl → (t.dec rd).rsv = (s.dec rd).rsv)
    | .sfldi rd f _ =>
      (∀ r, r ≠ rd → t.image r = s.image r) ∧ (f ≠ .rsv → f ≠ .ctrl → (t.dec rd).rsv = (s.dec rd).rsv)
    | .mov rd rs | .muls rd rs _ | .adds rd rs _ | .divs rd rs _ | .adje rd rs _ | .compact rd rs =>
      (∀ r, r ≠ rd → t.image r = s.image r) ∧
      (t.image rd = s.image rd ∨ (t.dec rd).rsv = (s.dec rs).rsv) ∧
      (Ready i s → t.status = 0 → (t.dec rd).rsv = (s.dec rs).rsv)

/-- Which commands write the compact flag (R504): after a command that succeeds, COMPACT left it 1 with the length minimal on
every value but NaN, MULS, ADDS, DIVS, ZERO and CVTU64 left it 0, MOV and ADJE carried it, and SFLD and SFLDI on a field
other than CMP and CTRL left it. -/
def Obligations.CompactFlagFollowsItsWriters : Prop :=
  ∀ (i : Instr) (s t : State), Ready i s → exec i s = .next t → t.status = 0 →
    match i with
    | .zero rd => (t.dec rd).cmp = false
    | .cvtu64 rd _ _ => (t.dec rd).cmp = false
    | .muls rd _ _ | .adds rd _ _ | .divs rd _ _ => (t.dec rd).cmp = false
    | .mov rd rs | .adje rd rs _ => (t.dec rd).cmp = (s.dec rs).cmp
    | .xfld rs _ => (t.dec rs).cmp = (s.dec rs).cmp
    | .sfld rd f => f ≠ .cmp → f ≠ .ctrl → (t.dec rd).cmp = (s.dec rd).cmp
    | .sfldi rd f _ => f ≠ .cmp → f ≠ .ctrl → (t.dec rd).cmp = (s.dec rd).cmp
    | .compact rd rs =>
      (s.dec rs).isNaN = false → (t.dec rd).cmp = true ∧ (t.dec rd).len.toNat = nwords (t.dec rd).mag

/-- A command changes valid bits only by setting its destination's, and never ARG's (R106). -/
def Obligations.CommandsOnlySetValidBits : Prop :=
  ∀ (i : Instr) (s t : State), exec i s = .next t →
    t.argValid = s.argValid ∧
    ∀ r, t.isValid r = s.isValid r ∨
      (t.isValid r = true ∧ t.status = 0 ∧ match i with
        | .zero rd | .mov rd _ | .cvtu64 rd _ _ | .sfld rd _ | .sfldi rd _ _ | .muls rd _ _ | .adds rd _ _
        | .divs rd _ _ | .adje rd _ _ | .compact rd _ => r = rd
        | .xfld _ _ => False)

/-- No command writes ARG (R107), only a DIVS that raises no error writes REM (R108), only XFLD writes FOUT (R109), and a
command changes nothing on the host's side of the port. -/
def Obligations.SideRegistersHaveTheirOwnWriters : Prop :=
  ∀ (i : Instr) (s t : State), exec i s = .next t →
    t.arg = s.arg ∧ t.argValid = s.argValid ∧
    (t.rem = s.rem ∨ ∃ rd rs v, i = .divs rd rs v ∧ t.status = 0) ∧
    (t.fout = s.fout ∨ ∃ rs f, i = .xfld rs f ∧ t.status = 0) ∧
    t.draws = s.draws ∧ t.port = s.port ∧ t.replies = s.replies

/-! ## Errors and faults -/

/-- Every command ends in a next state: no command stops the machine (R607, R609, R707). -/
def Obligations.EveryCommandEnds : Prop :=
  (∀ (i : Instr) (s : State), ∃ t, exec i s = .next t) ∧
  ∀ (h : Nat) (w : Cmd) (s : State), ∃ t, performOp ⟨h, .issue w⟩ s = .next t

/-- R603: the CalculationError each command records, with its condition; lossOfPrecision never. -/
def Obligations.CalculationErrorsByCommand : Prop :=
  ∀ (i : Instr) (s : State), Ready i s →
    ∃ t, exec i s = .next t ∧ t.status =
      match i with
      | .muls _ rs v => if 2 ^ 128 ≤ (s.dec rs).mag * v.toNat then 3 else 0
      | .adds _ rs v => if 2 ^ 128 ≤ (s.dec rs).mag + v.toNat then 3 else 0
      | .divs _ _ v => if v = 0 then 4 else 0
      | .adje _ rs k =>
        if 127 < (s.dec rs).expInt + k.toInt then 3 else if (s.dec rs).expInt + k.toInt < -128 then 2 else 0
      | .zero _ | .mov _ _ | .cvtu64 _ _ _ | .xfld _ _ | .sfld _ _ | .sfldi _ _ _ | .compact _ _ => 0

/-- R602: a CalculationError writes STATUS.CODE and nothing else, and the block accepts the next command. -/
def Obligations.CalculationErrorWritesOnlyStatus : Prop :=
  ∀ (i : Instr) (s t : State), Ready i s → exec i s = .next t → t.status ≠ 0 →
    t = { s with status := t.status } ∧ t.faultLatched = false

/-- R604: while a fault is latched every issued word is ignored; reads and writes still work; only HostReset clears the
fault. -/
def Obligations.GateHoldsUntilReset : Prop :=
  ∀ s : State, s.faultLatched = true → ∀ h : Nat,
    (∀ w : Cmd, performOp ⟨h, .issue w⟩ s = .next s) ∧
    performOp ⟨h, .read 8⟩ s = .next { s with replies := s.replies ++ [⟨h, .fault, .word s.fault⟩] } ∧
    performOp ⟨h, .read 9⟩ s = .next { s with replies := s.replies ++ [⟨h, .faultcmd, .word s.faultcmd⟩] } ∧
    (∀ id, id < 10 → ∃ t, performOp ⟨h, .read id⟩ s = .next t ∧ t.replies.length = s.replies.length + 1) ∧
    (∀ (r : DReg) (P : Image), performOp ⟨h, .write r.code.toNat (.image P)⟩ s =
      .next { s with d := s.d.set r P, valid := s.valid.set r true }) ∧
    (∀ a : BitVec 64, performOp ⟨h, .write 4 (.magnitude a)⟩ s = .next { s with arg := a, argValid := true }) ∧
    (∀ (op : HostOp) (t : State), op ≠ .reset → performOp ⟨h, op⟩ s = .next t →
      t.fault = s.fault ∧ t.faultcmd = s.faultcmd ∧ t.status = s.status) ∧
    (∃ t, performOp ⟨h, .reset⟩ s = .next t ∧ t.faultLatched = false)

/-- R605: the only change an issued word makes to FAULT or FAULTCMD is to record one cause, for its own reason, and the word
itself; it changes nothing else. -/
def Obligations.FaultRecordsCauseAndWord : Prop :=
  ∀ (h : Nat) (w : Cmd) (s t : State), performOp ⟨h, .issue w⟩ s = .next t →
    (t.fault ≠ s.fault ∨ t.faultcmd ≠ s.faultcmd) →
    ∃ c : BitVec 32, t = { s with fault := c, faultcmd := w } ∧
      ((c = 1 ∧ ∀ i, decode w ≠ .ok i) ∨
       (c = 2 ∧ ∃ i, decode w = .ok i ∧ ∃ x ∈ operandsOf i, s.sourceValid x = false) ∨
       (c = 3 ∧ ∃ i, decode w = .ok i ∧ ∃ r ∈ countedOperand i, 8 < (s.dec r).len.toNat))

/-- R606: which operand registers are checked, command by command, and that with those valid (and a length of at most 8 where
it counts, R607) the command is not refused, whatever else is not valid: ZERO reads none, SFLDI does not read ARG, and a
destination that is only written is not checked. -/
def Obligations.UninitializedOperandsAreRefused : Prop :=
  ∀ (rd rs : DReg) (f : Field) (e : BitVec 8) (n : Bool) (v : Word) (s : State), s.faultLatched = false →
    let refused := fun i : Instr => exec i s = .next { s with fault := 2, faultcmd := encode i }
    let accepted := fun i : Instr => ∃ t, exec i s = .next t ∧ t.fault = s.fault ∧ t.faultcmd = s.faultcmd
    (s.isValid rs = false →
      refused (.mov rd rs) ∧ refused (.xfld rs f) ∧ refused (.muls rd rs v) ∧ refused (.adds rd rs v) ∧
      refused (.divs rd rs v) ∧ refused (.adje rd rs v) ∧ refused (.compact rd rs)) ∧
    (f ≠ .isNaN → s.isValid rd = false → refused (.sfld rd f) ∧ refused (.sfldi rd f v)) ∧
    (s.argValid = false → refused (.cvtu64 rd e n) ∧ (f ≠ .isNaN → refused (.sfld rd f))) ∧
    accepted (.zero rd) ∧
    (s.argValid = true → accepted (.cvtu64 rd e n)) ∧
    (f ≠ .isNaN → s.isValid rd = true →
      accepted (.sfldi rd f v) ∧ (s.argValid = true → accepted (.sfld rd f))) ∧
    (s.isValid rs = true → accepted (.mov rd rs) ∧ accepted (.xfld rs f) ∧ accepted (.adje rd rs v) ∧
      ((s.dec rs).len.toNat ≤ 8 →
        accepted (.muls rd rs v) ∧ accepted (.adds rd rs v) ∧ accepted (.divs rd rs v) ∧ accepted (.compact rd rs)))

/-- R607: a length of 9 to 15 is refused by the four commands that count words and by no other. -/
def Obligations.LengthAboveEightIsRefused : Prop :=
  ∀ (rd rs : DReg) (f : Field) (v : Word) (s : State), s.faultLatched = false → s.isValid rs = true →
    8 < (s.dec rs).len.toNat →
    let refused := fun i : Instr => exec i s = .next { s with fault := 3, faultcmd := encode i }
    let accepted := fun i : Instr => ∃ t, exec i s = .next t ∧ t.fault = s.fault ∧ t.faultcmd = s.faultcmd
    refused (.muls rd rs v) ∧ refused (.adds rd rs v) ∧ refused (.divs rd rs v) ∧ refused (.compact rd rs) ∧
    accepted (.mov rd rs) ∧ accepted (.xfld rs f) ∧ accepted (.adje rd rs v) ∧
    (f ≠ .isNaN → accepted (.sfldi rs f v) ∧ (s.argValid = true → accepted (.sfld rs f)))

/-- R608: a command reports the first event of the list and no other. -/
def Obligations.FirstEventInOrderIsReported : Prop :=
  ∀ (h : Nat) (w : Cmd) (s : State),
    let refused := fun c : BitVec 32 => performOp ⟨h, .issue w⟩ s = .next { s with fault := c, faultcmd := w }
    (s.faultLatched = true → performOp ⟨h, .issue w⟩ s = .next s) ∧
    (s.faultLatched = false → (∀ i, decode w ≠ .ok i) → refused 1) ∧
    (s.faultLatched = false → ∀ i, decode w = .ok i →
      ((∃ x ∈ operandsOf i, s.sourceValid x = false) → refused 2) ∧
      ((∀ x ∈ operandsOf i, s.sourceValid x = true) → (∃ r ∈ countedOperand i, 8 < (s.dec r).len.toNat) → refused 3) ∧
      (Ready i s → ∃ t, performOp ⟨h, .issue w⟩ s = .next t ∧ t.fault = s.fault ∧ t.faultcmd = s.faultcmd ∧
        (t.status = 0 ∨ t = { s with status := t.status } ∧ match i with
          | .divs _ _ _ => t.status = 4
          | .muls _ _ _ | .adds _ _ _ => t.status = 3
          | .adje _ _ _ => t.status = 3 ∨ t.status = 2
          | .zero _ | .mov _ _ | .cvtu64 _ _ _ | .xfld _ _ | .sfld _ _ | .sfldi _ _ _ | .compact _ _ => False))) ∧
    (∀ rd rs : DReg, s.faultLatched = false → s.isValid rs = true → (s.dec rs).len = 12 →
      exec (.divs rd rs 0) s = .next { s with fault := 3, faultcmd := encode (.divs rd rs 0) })

/-- The event half of R609, with R601: a command changes nothing at all, or the fault registers alone, or STATUS alone, or it
succeeds, with STATUS 0 and the fault channel as it was. What a success writes is said command by command elsewhere. -/
def Obligations.EveryEventIsPrecise : Prop :=
  ∀ (i : Instr) (s t : State), exec i s = .next t →
    (s.faultLatched = true ∧ t = s) ∨
    (s.faultLatched = false ∧ (t.fault = 1 ∨ t.fault = 2 ∨ t.fault = 3) ∧
      t = { s with fault := t.fault, faultcmd := encode i }) ∨
    (s.faultLatched = false ∧ (t.status = 2 ∨ t.status = 3 ∨ t.status = 4) ∧ t = { s with status := t.status }) ∨
    (s.faultLatched = false ∧ t.status = 0 ∧ t.fault = s.fault ∧ t.faultcmd = s.faultcmd)

/-- R612: through any operations without a HostReset the first fault is the one kept, and STATUS, REM and FOUT stay as they
were when it was latched. -/
def Obligations.FirstFaultIsKept : Prop :=
  ∀ (ops : List PortOp) (s t : State), s.faultLatched = true → (∀ p ∈ ops, p.op ≠ .reset) →
    performAll ops s = .next t →
      t.fault = s.fault ∧ t.faultcmd = s.faultcmd ∧ t.status = s.status ∧ t.rem = s.rem ∧ t.fout = s.fout

/-! ## Host operations, reset and order -/

/-- HostRead answers the whole register and changes no register of the block (R205); an unwritten one answers a draw, any
value of its width (a free value, log entry 2), and the next draw is another. -/
def Obligations.HostReadAnswersTheRegister : Prop :=
  ∀ (h : Nat) (s : State),
    let said := fun (r : HostReg) (v : HostValue) => { s with replies := s.replies ++ [⟨h, r, v⟩] }
    let drew := fun (r : HostReg) (v : HostValue) =>
      { s with draws := s.draws + 1, replies := s.replies ++ [⟨h, r, v⟩] }
    (∀ (id : Nat) (r : DReg), id = r.code.toNat → performOp ⟨h, .read id⟩ s =
      .next (if s.isValid r then said (.d r) (.image (s.image r))
             else drew (.d r) (.image (Config.unspecifiedImage s.draws)))) ∧
    performOp ⟨h, .read 4⟩ s =
      .next (if s.argValid then said .arg (.magnitude s.arg)
             else drew .arg (.magnitude (Config.unspecifiedArg s.draws))) ∧
    performOp ⟨h, .read 5⟩ s =
      .next (if s.remWritten then said .rem (.word (BitVec.ofNat 32 s.rem.toNat))
             else drew .rem (.word (BitVec.ofNat 32 (Config.unspecifiedRem s.draws).toNat))) ∧
    performOp ⟨h, .read 6⟩ s =
      .next (if s.foutWritten then said .fout (.word s.fout)
             else drew .fout (.word (Config.unspecifiedFout s.draws))) ∧
    performOp ⟨h, .read 7⟩ s = .next (said .status (.word s.status)) ∧
    performOp ⟨h, .read 8⟩ s = .next (said .fault (.word s.fault)) ∧
    performOp ⟨h, .read 9⟩ s = .next (said .faultcmd (.word s.faultcmd))

/-- HostWrite of a decimal register or of ARG writes it whole and makes it valid; of the other registers it changes nothing;
while a fault is latched too (R206). That the last holds for a value of any width is the model's reading, log entry 17. -/
def Obligations.HostWriteWritesTheRegister : Prop :=
  ∀ (h : Nat) (s : State),
    (∀ (id : Nat) (r : DReg) (P : Image), id = r.code.toNat →
      performOp ⟨h, .write id (.image P)⟩ s =
        .next { s with d := s.d.set r P, valid := s.valid.set r true }) ∧
    (∀ a : BitVec 64, performOp ⟨h, .write 4 (.magnitude a)⟩ s = .next { s with arg := a, argValid := true }) ∧
    (∀ (id : Nat) (v : HostValue), 5 ≤ id → id ≤ 9 → performOp ⟨h, .write id v⟩ s = .next s)

/-- A register read back after it was written is what was written, and the other three are as they were. -/
def Obligations.RegisterFileReadsWhatWasWritten : Prop :=
  ∀ (α : Type) (b : Bank α) (r q : DReg) (x : α), (b.set r x).get q = if q = r then x else b.get q

/-- What spells no operation of the interface is refused by name: a read or a write of an id outside 0 to 9 (R202; log entry
9), and a write to D0 to D3 or to ARG of a value that is not the whole register (R209 says that a partial write does not
exist; that the model refuses it is log entry 7). A write to the other registers is ignored whatever it carries (log
entry 17). -/
def Obligations.OperationsOffTheInterfaceAreRefused : Prop :=
  (∀ (h id : Nat) (v : HostValue) (s : State), 9 < id →
    performOp ⟨h, .read id⟩ s = .refused (.noSuchRegister id) ∧
    performOp ⟨h, .write id v⟩ s = .refused (.noSuchRegister id)) ∧
  ∀ (h : Nat) (s : State) (P : Image) (a : BitVec 64) (x : BitVec 32),
    (∀ (id : Nat) (r : DReg), id = r.code.toNat →
      performOp ⟨h, .write id (.magnitude a)⟩ s = .refused (.notAWholeRegister id) ∧
      performOp ⟨h, .write id (.word x)⟩ s = .refused (.notAWholeRegister id)) ∧
    performOp ⟨h, .write 4 (.image P)⟩ s = .refused (.notAWholeRegister 4) ∧
    performOp ⟨h, .write 4 (.word x)⟩ s = .refused (.notAWholeRegister 4)

/-- HostWrite is idempotent (R210); HostIssue is not: MULS D0, D0, #10 issued twice multiplies by 100. -/
def Obligations.WriteTwiceIsOnceAndIssueTwiceIsNot : Prop :=
  ∀ (h : Nat) (s : State),
    (∀ (id : Nat) (v : HostValue) (t : State), performOp ⟨h, .write id v⟩ s = .next t →
      performOp ⟨h, .write id v⟩ t = .next t) ∧
    (s.faultLatched = false → s.isValid .d0 = true → (s.dec .d0).len.toNat ≤ 8 → (s.dec .d0).mag * 100 < 2 ^ 128 →
      ∃ t, performAll [⟨h, .issue 0x1000000A⟩, ⟨h, .issue 0x1000000A⟩] s = .next t ∧
        (t.dec .d0).mag = (s.dec .d0).mag * 100 ∧ t.status = 0)

/-- HostReset (R701, R702): no register is valid, REM and FOUT count as unwritten, STATUS, FAULT and FAULTCMD are zero, the
fault gate is open, what is still pending stays pending. Afterwards a read of D0 to D3, ARG, REM or FOUT is a draw (R205;
log entries 2 and 3), and a command that reads a register is refused. -/
def Obligations.HostResetClearsTheControlState : Prop :=
  ∀ (h : Nat) (s : State), ∃ t, performOp ⟨h, .reset⟩ s = .next t ∧
    t.valid = Bank.all false ∧ t.argValid = false ∧ t.status = 0 ∧ t.fault = 0 ∧ t.faultcmd = 0 ∧
    t.faultLatched = false ∧ t.remWritten = false ∧ t.foutWritten = false ∧ t.port = s.port ∧ t.replies = s.replies ∧
    (∀ r : DReg, performOp ⟨h, .read r.code.toNat⟩ t =
      .next { t with draws := t.draws + 1,
                     replies := t.replies ++ [⟨h, .d r, .image (Config.unspecifiedImage t.draws)⟩] }) ∧
    performOp ⟨h, .read 4⟩ t =
      .next { t with draws := t.draws + 1,
                     replies := t.replies ++ [⟨h, .arg, .magnitude (Config.unspecifiedArg t.draws)⟩] } ∧
    performOp ⟨h, .read 5⟩ t =
      .next { t with draws := t.draws + 1,
                     replies := t.replies ++ [⟨h, .rem, .word (BitVec.ofNat 32 (Config.unspecifiedRem t.draws).toNat)⟩] } ∧
    performOp ⟨h, .read 6⟩ t =
      .next { t with draws := t.draws + 1,
                     replies := t.replies ++ [⟨h, .fout, .word (Config.unspecifiedFout t.draws)⟩] } ∧
    (∀ i : Instr, i.wf = true → operandsOf i ≠ [] →
      exec i t = .next { t with fault := 2, faultcmd := encode i })

/-- What power-on leaves, as far as the spec says it (R114, R701): valid bits, STATUS, FAULT and FAULTCMD. The contents of
the data registers are the model's choice (log entry 1) and are not stated. -/
def Obligations.PowerOnState : Prop :=
  State.reset.valid = Bank.all false ∧ State.reset.argValid = false ∧ State.reset.status = 0x00000000 ∧
  State.reset.fault = 0x00000000 ∧ State.reset.faultcmd = 0x00000000 ∧ State.reset.faultLatched = false

/-- A host that has given every register a value (R703) never meets UNINITIALIZED_OPERAND before the next reset. -/
def Obligations.BootedBlockNeverReadsUnwritten : Prop :=
  ∀ (ops : List PortOp) (s t : State), s.booted → s.fault ≠ 2 → (∀ p ∈ ops, p.op ≠ .reset) →
    performAll ops s = .next t → t.booted ∧ t.fault ≠ 2

/-- The standing promises hold at power-on. -/
def Obligations.InvariantAtReset : Prop := State.reset.Inv

/-- Every step keeps the standing promises: STATUS holds one of the codes 0, 2, 3 and 4 with zeros above (R110, R603), FAULT
and FAULTCMD are both zero or record one cause and a word that accounts for it (R111, R605), and every pending operation has
a host (R5). -/
def Obligations.InvariantKeptByEveryStep : Prop :=
  ∀ s t : State, s.Inv → step s = .next t → t.Inv

/-- R212: running the port is performing its operations one at a time in its order, each on the state that all before it
left; and every interleaving of the hosts' own orders is an order the machine runs. That the order is a list in State is
the model's choice of form (log entry 4), and so are the hosts' numbers and the opaque HOST_COUNT (log entry 5). -/
def Obligations.PortRunsOneTotalOrder : Prop :=
  (∀ (ops rest : List PortOp) (s : State),
    Sys2Proof.core.run ops.length { s with port := ops ++ rest } = performAll ops { s with port := rest }) ∧
  (∀ (programs : List (List HostOp)) (order : List PortOp) (s : State), s.Inv →
    programs.length ≤ Config.hostCount → interleaves programs order →
      { s with port := order }.Inv ∧
      Sys2Proof.core.run order.length { s with port := order } = performAll order { s with port := [] })
end

