-- ==== Sys2Proof/Laws/State.lean ====
section
/-! SUPPORT. The small lemmas of the state: one per field and update, true by rfl, and what reading a register gives after
writing one. -/

namespace Sys2Proof.Machine

/-! ## Banks -/

@[simp] theorem Bank.get_set_same {α : Type} (b : Bank α) (r : DReg) (x : α) : (b.set r x).get r = x := by
  cases r <;> rfl

@[simp] theorem Bank.get_set_other {α : Type} (b : Bank α) (r q : DReg) (x : α) (h : q ≠ r) :
    (b.set r x).get q = b.get q := by
  cases r <;> cases q <;> first | rfl | exact absurd rfl h

theorem Bank.get_set {α : Type} (b : Bank α) (r q : DReg) (x : α) :
    (b.set r x).get q = if q = r then x else b.get q := by
  cases r <;> cases q <;> rfl

@[simp] theorem Bank.get_all {α : Type} (x : α) (r : DReg) : (Bank.all x).get r = x := by cases r <;> rfl

@[simp] theorem Bank.set_set {α : Type} (b : Bank α) (r : DReg) (x y : α) : (b.set r x).set r y = b.set r y := by
  cases r <;> rfl

@[simp] theorem Bank.set_get {α : Type} (b : Bank α) (r : DReg) : b.set r (b.get r) = b := by cases r <;> rfl

theorem Bank.ext_get {α : Type} {a b : Bank α} (h : ∀ r, a.get r = b.get r) : a = b := by
  cases a; cases b
  exact (Bank.mk.injEq ..).mpr ⟨h .d0, h .d1, h .d2, h .d3⟩

/-! ## writeImage -/

@[simp] theorem State.writeImage_d (s : State) (r : DReg) (P : Image) : (s.writeImage r P).d = s.d.set r P := rfl
@[simp] theorem State.writeImage_valid (s : State) (r : DReg) (P : Image) : (s.writeImage r P).valid = s.valid.set r true := rfl
@[simp] theorem State.writeImage_arg (s : State) (r : DReg) (P : Image) : (s.writeImage r P).arg = s.arg := rfl
@[simp] theorem State.writeImage_argValid (s : State) (r : DReg) (P : Image) : (s.writeImage r P).argValid = s.argValid := rfl
@[simp] theorem State.writeImage_rem (s : State) (r : DReg) (P : Image) : (s.writeImage r P).rem = s.rem := rfl
@[simp] theorem State.writeImage_fout (s : State) (r : DReg) (P : Image) : (s.writeImage r P).fout = s.fout := rfl
@[simp] theorem State.writeImage_status (s : State) (r : DReg) (P : Image) : (s.writeImage r P).status = s.status := rfl
@[simp] theorem State.writeImage_fault (s : State) (r : DReg) (P : Image) : (s.writeImage r P).fault = s.fault := rfl
@[simp] theorem State.writeImage_faultcmd (s : State) (r : DReg) (P : Image) : (s.writeImage r P).faultcmd = s.faultcmd := rfl
@[simp] theorem State.writeImage_remWritten (s : State) (r : DReg) (P : Image) : (s.writeImage r P).remWritten = s.remWritten := rfl
@[simp] theorem State.writeImage_foutWritten (s : State) (r : DReg) (P : Image) : (s.writeImage r P).foutWritten = s.foutWritten := rfl
@[simp] theorem State.writeImage_draws (s : State) (r : DReg) (P : Image) : (s.writeImage r P).draws = s.draws := rfl
@[simp] theorem State.writeImage_port (s : State) (r : DReg) (P : Image) : (s.writeImage r P).port = s.port := rfl
@[simp] theorem State.writeImage_replies (s : State) (r : DReg) (P : Image) : (s.writeImage r P).replies = s.replies := rfl

/-! ## writeDec -/

@[simp] theorem State.writeDec_d (s : State) (r : DReg) (x : Dec) : (s.writeDec r x).d = s.d.set r (encodeImage x) := rfl
@[simp] theorem State.writeDec_valid (s : State) (r : DReg) (x : Dec) : (s.writeDec r x).valid = s.valid.set r true := rfl
@[simp] theorem State.writeDec_arg (s : State) (r : DReg) (x : Dec) : (s.writeDec r x).arg = s.arg := rfl
@[simp] theorem State.writeDec_argValid (s : State) (r : DReg) (x : Dec) : (s.writeDec r x).argValid = s.argValid := rfl
@[simp] theorem State.writeDec_rem (s : State) (r : DReg) (x : Dec) : (s.writeDec r x).rem = s.rem := rfl
@[simp] theorem State.writeDec_fout (s : State) (r : DReg) (x : Dec) : (s.writeDec r x).fout = s.fout := rfl
@[simp] theorem State.writeDec_status (s : State) (r : DReg) (x : Dec) : (s.writeDec r x).status = s.status := rfl
@[simp] theorem State.writeDec_fault (s : State) (r : DReg) (x : Dec) : (s.writeDec r x).fault = s.fault := rfl
@[simp] theorem State.writeDec_faultcmd (s : State) (r : DReg) (x : Dec) : (s.writeDec r x).faultcmd = s.faultcmd := rfl
@[simp] theorem State.writeDec_remWritten (s : State) (r : DReg) (x : Dec) : (s.writeDec r x).remWritten = s.remWritten := rfl
@[simp] theorem State.writeDec_foutWritten (s : State) (r : DReg) (x : Dec) : (s.writeDec r x).foutWritten = s.foutWritten := rfl
@[simp] theorem State.writeDec_draws (s : State) (r : DReg) (x : Dec) : (s.writeDec r x).draws = s.draws := rfl
@[simp] theorem State.writeDec_port (s : State) (r : DReg) (x : Dec) : (s.writeDec r x).port = s.port := rfl
@[simp] theorem State.writeDec_replies (s : State) (r : DReg) (x : Dec) : (s.writeDec r x).replies = s.replies := rfl

/-! ## writeArg -/

@[simp] theorem State.writeArg_d (s : State) (a : BitVec 64) : (s.writeArg a).d = s.d := rfl
@[simp] theorem State.writeArg_valid (s : State) (a : BitVec 64) : (s.writeArg a).valid = s.valid := rfl
@[simp] theorem State.writeArg_arg (s : State) (a : BitVec 64) : (s.writeArg a).arg = a := rfl
@[simp] theorem State.writeArg_argValid (s : State) (a : BitVec 64) : (s.writeArg a).argValid = true := rfl
@[simp] theorem State.writeArg_rem (s : State) (a : BitVec 64) : (s.writeArg a).rem = s.rem := rfl
@[simp] theorem State.writeArg_fout (s : State) (a : BitVec 64) : (s.writeArg a).fout = s.fout := rfl
@[simp] theorem State.writeArg_status (s : State) (a : BitVec 64) : (s.writeArg a).status = s.status := rfl
@[simp] theorem State.writeArg_fault (s : State) (a : BitVec 64) : (s.writeArg a).fault = s.fault := rfl
@[simp] theorem State.writeArg_faultcmd (s : State) (a : BitVec 64) : (s.writeArg a).faultcmd = s.faultcmd := rfl
@[simp] theorem State.writeArg_remWritten (s : State) (a : BitVec 64) : (s.writeArg a).remWritten = s.remWritten := rfl
@[simp] theorem State.writeArg_foutWritten (s : State) (a : BitVec 64) : (s.writeArg a).foutWritten = s.foutWritten := rfl
@[simp] theorem State.writeArg_draws (s : State) (a : BitVec 64) : (s.writeArg a).draws = s.draws := rfl
@[simp] theorem State.writeArg_port (s : State) (a : BitVec 64) : (s.writeArg a).port = s.port := rfl
@[simp] theorem State.writeArg_replies (s : State) (a : BitVec 64) : (s.writeArg a).replies = s.replies := rfl

/-! ## writeRem -/

@[simp] theorem State.writeRem_d (s : State) (rm : Word) : (s.writeRem rm).d = s.d := rfl
@[simp] theorem State.writeRem_valid (s : State) (rm : Word) : (s.writeRem rm).valid = s.valid := rfl
@[simp] theorem State.writeRem_arg (s : State) (rm : Word) : (s.writeRem rm).arg = s.arg := rfl
@[simp] theorem State.writeRem_argValid (s : State) (rm : Word) : (s.writeRem rm).argValid = s.argValid := rfl
@[simp] theorem State.writeRem_rem (s : State) (rm : Word) : (s.writeRem rm).rem = rm := rfl
@[simp] theorem State.writeRem_fout (s : State) (rm : Word) : (s.writeRem rm).fout = s.fout := rfl
@[simp] theorem State.writeRem_status (s : State) (rm : Word) : (s.writeRem rm).status = s.status := rfl
@[simp] theorem State.writeRem_fault (s : State) (rm : Word) : (s.writeRem rm).fault = s.fault := rfl
@[simp] theorem State.writeRem_faultcmd (s : State) (rm : Word) : (s.writeRem rm).faultcmd = s.faultcmd := rfl
@[simp] theorem State.writeRem_remWritten (s : State) (rm : Word) : (s.writeRem rm).remWritten = true := rfl
@[simp] theorem State.writeRem_foutWritten (s : State) (rm : Word) : (s.writeRem rm).foutWritten = s.foutWritten := rfl
@[simp] theorem State.writeRem_draws (s : State) (rm : Word) : (s.writeRem rm).draws = s.draws := rfl
@[simp] theorem State.writeRem_port (s : State) (rm : Word) : (s.writeRem rm).port = s.port := rfl
@[simp] theorem State.writeRem_replies (s : State) (rm : Word) : (s.writeRem rm).replies = s.replies := rfl

/-! ## writeFout -/

@[simp] theorem State.writeFout_d (s : State) (v : BitVec 32) : (s.writeFout v).d = s.d := rfl
@[simp] theorem State.writeFout_valid (s : State) (v : BitVec 32) : (s.writeFout v).valid = s.valid := rfl
@[simp] theorem State.writeFout_arg (s : State) (v : BitVec 32) : (s.writeFout v).arg = s.arg := rfl
@[simp] theorem State.writeFout_argValid (s : State) (v : BitVec 32) : (s.writeFout v).argValid = s.argValid := rfl
@[simp] theorem State.writeFout_rem (s : State) (v : BitVec 32) : (s.writeFout v).rem = s.rem := rfl
@[simp] theorem State.writeFout_fout (s : State) (v : BitVec 32) : (s.writeFout v).fout = v := rfl
@[simp] theorem State.writeFout_status (s : State) (v : BitVec 32) : (s.writeFout v).status = s.status := rfl
@[simp] theorem State.writeFout_fault (s : State) (v : BitVec 32) : (s.writeFout v).fault = s.fault := rfl
@[simp] theorem State.writeFout_faultcmd (s : State) (v : BitVec 32) : (s.writeFout v).faultcmd = s.faultcmd := rfl
@[simp] theorem State.writeFout_remWritten (s : State) (v : BitVec 32) : (s.writeFout v).remWritten = s.remWritten := rfl
@[simp] theorem State.writeFout_foutWritten (s : State) (v : BitVec 32) : (s.writeFout v).foutWritten = true := rfl
@[simp] theorem State.writeFout_draws (s : State) (v : BitVec 32) : (s.writeFout v).draws = s.draws := rfl
@[simp] theorem State.writeFout_port (s : State) (v : BitVec 32) : (s.writeFout v).port = s.port := rfl
@[simp] theorem State.writeFout_replies (s : State) (v : BitVec 32) : (s.writeFout v).replies = s.replies := rfl

/-! ## setCode -/

@[simp] theorem State.setCode_d (s : State) (e : CalcError) : (s.setCode e).d = s.d := rfl
@[simp] theorem State.setCode_valid (s : State) (e : CalcError) : (s.setCode e).valid = s.valid := rfl
@[simp] theorem State.setCode_arg (s : State) (e : CalcError) : (s.setCode e).arg = s.arg := rfl
@[simp] theorem State.setCode_argValid (s : State) (e : CalcError) : (s.setCode e).argValid = s.argValid := rfl
@[simp] theorem State.setCode_rem (s : State) (e : CalcError) : (s.setCode e).rem = s.rem := rfl
@[simp] theorem State.setCode_fout (s : State) (e : CalcError) : (s.setCode e).fout = s.fout := rfl
@[simp] theorem State.setCode_status (s : State) (e : CalcError) : (s.setCode e).status = e.status := rfl
@[simp] theorem State.setCode_fault (s : State) (e : CalcError) : (s.setCode e).fault = s.fault := rfl
@[simp] theorem State.setCode_faultcmd (s : State) (e : CalcError) : (s.setCode e).faultcmd = s.faultcmd := rfl
@[simp] theorem State.setCode_remWritten (s : State) (e : CalcError) : (s.setCode e).remWritten = s.remWritten := rfl
@[simp] theorem State.setCode_foutWritten (s : State) (e : CalcError) : (s.setCode e).foutWritten = s.foutWritten := rfl
@[simp] theorem State.setCode_draws (s : State) (e : CalcError) : (s.setCode e).draws = s.draws := rfl
@[simp] theorem State.setCode_port (s : State) (e : CalcError) : (s.setCode e).port = s.port := rfl
@[simp] theorem State.setCode_replies (s : State) (e : CalcError) : (s.setCode e).replies = s.replies := rfl

/-! ## raiseCalc -/

@[simp] theorem State.raiseCalc_d (s : State) (e : CalcError) : (s.raiseCalc e).d = s.d := rfl
@[simp] theorem State.raiseCalc_valid (s : State) (e : CalcError) : (s.raiseCalc e).valid = s.valid := rfl
@[simp] theorem State.raiseCalc_arg (s : State) (e : CalcError) : (s.raiseCalc e).arg = s.arg := rfl
@[simp] theorem State.raiseCalc_argValid (s : State) (e : CalcError) : (s.raiseCalc e).argValid = s.argValid := rfl
@[simp] theorem State.raiseCalc_rem (s : State) (e : CalcError) : (s.raiseCalc e).rem = s.rem := rfl
@[simp] theorem State.raiseCalc_fout (s : State) (e : CalcError) : (s.raiseCalc e).fout = s.fout := rfl
@[simp] theorem State.raiseCalc_status (s : State) (e : CalcError) : (s.raiseCalc e).status = e.status := rfl
@[simp] theorem State.raiseCalc_fault (s : State) (e : CalcError) : (s.raiseCalc e).fault = s.fault := rfl
@[simp] theorem State.raiseCalc_faultcmd (s : State) (e : CalcError) : (s.raiseCalc e).faultcmd = s.faultcmd := rfl
@[simp] theorem State.raiseCalc_remWritten (s : State) (e : CalcError) : (s.raiseCalc e).remWritten = s.remWritten := rfl
@[simp] theorem State.raiseCalc_foutWritten (s : State) (e : CalcError) : (s.raiseCalc e).foutWritten = s.foutWritten := rfl
@[simp] theorem State.raiseCalc_draws (s : State) (e : CalcError) : (s.raiseCalc e).draws = s.draws := rfl
@[simp] theorem State.raiseCalc_port (s : State) (e : CalcError) : (s.raiseCalc e).port = s.port := rfl
@[simp] theorem State.raiseCalc_replies (s : State) (e : CalcError) : (s.raiseCalc e).replies = s.replies := rfl

/-! ## succeed -/

@[simp] theorem State.succeed_d (s : State) (r : DReg) (x : Dec) : (s.succeed r x).d = s.d.set r (encodeImage x) := rfl
@[simp] theorem State.succeed_valid (s : State) (r : DReg) (x : Dec) : (s.succeed r x).valid = s.valid.set r true := rfl
@[simp] theorem State.succeed_arg (s : State) (r : DReg) (x : Dec) : (s.succeed r x).arg = s.arg := rfl
@[simp] theorem State.succeed_argValid (s : State) (r : DReg) (x : Dec) : (s.succeed r x).argValid = s.argValid := rfl
@[simp] theorem State.succeed_rem (s : State) (r : DReg) (x : Dec) : (s.succeed r x).rem = s.rem := rfl
@[simp] theorem State.succeed_fout (s : State) (r : DReg) (x : Dec) : (s.succeed r x).fout = s.fout := rfl
@[simp] theorem State.succeed_status (s : State) (r : DReg) (x : Dec) : (s.succeed r x).status = 0 := rfl
@[simp] theorem State.succeed_fault (s : State) (r : DReg) (x : Dec) : (s.succeed r x).fault = s.fault := rfl
@[simp] theorem State.succeed_faultcmd (s : State) (r : DReg) (x : Dec) : (s.succeed r x).faultcmd = s.faultcmd := rfl
@[simp] theorem State.succeed_remWritten (s : State) (r : DReg) (x : Dec) : (s.succeed r x).remWritten = s.remWritten := rfl
@[simp] theorem State.succeed_foutWritten (s : State) (r : DReg) (x : Dec) : (s.succeed r x).foutWritten = s.foutWritten := rfl
@[simp] theorem State.succeed_draws (s : State) (r : DReg) (x : Dec) : (s.succeed r x).draws = s.draws := rfl
@[simp] theorem State.succeed_port (s : State) (r : DReg) (x : Dec) : (s.succeed r x).port = s.port := rfl
@[simp] theorem State.succeed_replies (s : State) (r : DReg) (x : Dec) : (s.succeed r x).replies = s.replies := rfl

/-! ## raiseFault -/

@[simp] theorem State.raiseFault_d (s : State) (c : FaultCause) (w : Cmd) : (s.raiseFault c w).d = s.d := rfl
@[simp] theorem State.raiseFault_valid (s : State) (c : FaultCause) (w : Cmd) : (s.raiseFault c w).valid = s.valid := rfl
@[simp] theorem State.raiseFault_arg (s : State) (c : FaultCause) (w : Cmd) : (s.raiseFault c w).arg = s.arg := rfl
@[simp] theorem State.raiseFault_argValid (s : State) (c : FaultCause) (w : Cmd) : (s.raiseFault c w).argValid = s.argValid := rfl
@[simp] theorem State.raiseFault_rem (s : State) (c : FaultCause) (w : Cmd) : (s.raiseFault c w).rem = s.rem := rfl
@[simp] theorem State.raiseFault_fout (s : State) (c : FaultCause) (w : Cmd) : (s.raiseFault c w).fout = s.fout := rfl
@[simp] theorem State.raiseFault_status (s : State) (c : FaultCause) (w : Cmd) : (s.raiseFault c w).status = s.status := rfl
@[simp] theorem State.raiseFault_fault (s : State) (c : FaultCause) (w : Cmd) : (s.raiseFault c w).fault = c.fault := rfl
@[simp] theorem State.raiseFault_faultcmd (s : State) (c : FaultCause) (w : Cmd) : (s.raiseFault c w).faultcmd = w := rfl
@[simp] theorem State.raiseFault_remWritten (s : State) (c : FaultCause) (w : Cmd) : (s.raiseFault c w).remWritten = s.remWritten := rfl
@[simp] theorem State.raiseFault_foutWritten (s : State) (c : FaultCause) (w : Cmd) : (s.raiseFault c w).foutWritten = s.foutWritten := rfl
@[simp] theorem State.raiseFault_draws (s : State) (c : FaultCause) (w : Cmd) : (s.raiseFault c w).draws = s.draws := rfl
@[simp] theorem State.raiseFault_port (s : State) (c : FaultCause) (w : Cmd) : (s.raiseFault c w).port = s.port := rfl
@[simp] theorem State.raiseFault_replies (s : State) (c : FaultCause) (w : Cmd) : (s.raiseFault c w).replies = s.replies := rfl

/-! ## hostReset -/

@[simp] theorem State.hostReset_valid (s : State) : (s.hostReset).valid = Bank.all false := rfl
@[simp] theorem State.hostReset_argValid (s : State) : (s.hostReset).argValid = false := rfl
@[simp] theorem State.hostReset_status (s : State) : (s.hostReset).status = 0 := rfl
@[simp] theorem State.hostReset_fault (s : State) : (s.hostReset).fault = 0 := rfl
@[simp] theorem State.hostReset_faultcmd (s : State) : (s.hostReset).faultcmd = 0 := rfl
@[simp] theorem State.hostReset_remWritten (s : State) : (s.hostReset).remWritten = false := rfl
@[simp] theorem State.hostReset_foutWritten (s : State) : (s.hostReset).foutWritten = false := rfl
@[simp] theorem State.hostReset_draws (s : State) : (s.hostReset).draws = s.draws + 4 := rfl
@[simp] theorem State.hostReset_port (s : State) : (s.hostReset).port = s.port := rfl
@[simp] theorem State.hostReset_replies (s : State) : (s.hostReset).replies = s.replies := rfl

/-! ## drawn -/

@[simp] theorem State.drawn_d (s : State) : (s.drawn).d = s.d := rfl
@[simp] theorem State.drawn_valid (s : State) : (s.drawn).valid = s.valid := rfl
@[simp] theorem State.drawn_arg (s : State) : (s.drawn).arg = s.arg := rfl
@[simp] theorem State.drawn_argValid (s : State) : (s.drawn).argValid = s.argValid := rfl
@[simp] theorem State.drawn_rem (s : State) : (s.drawn).rem = s.rem := rfl
@[simp] theorem State.drawn_fout (s : State) : (s.drawn).fout = s.fout := rfl
@[simp] theorem State.drawn_status (s : State) : (s.drawn).status = s.status := rfl
@[simp] theorem State.drawn_fault (s : State) : (s.drawn).fault = s.fault := rfl
@[simp] theorem State.drawn_faultcmd (s : State) : (s.drawn).faultcmd = s.faultcmd := rfl
@[simp] theorem State.drawn_remWritten (s : State) : (s.drawn).remWritten = s.remWritten := rfl
@[simp] theorem State.drawn_foutWritten (s : State) : (s.drawn).foutWritten = s.foutWritten := rfl
@[simp] theorem State.drawn_draws (s : State) : (s.drawn).draws = s.draws + 1 := rfl
@[simp] theorem State.drawn_port (s : State) : (s.drawn).port = s.port := rfl
@[simp] theorem State.drawn_replies (s : State) : (s.drawn).replies = s.replies := rfl

/-! ## answer -/

@[simp] theorem State.answer_d (s : State) (h : Nat) (r : HostReg) (v : HostValue) : (s.answer h r v).d = s.d := rfl
@[simp] theorem State.answer_valid (s : State) (h : Nat) (r : HostReg) (v : HostValue) : (s.answer h r v).valid = s.valid := rfl
@[simp] theorem State.answer_arg (s : State) (h : Nat) (r : HostReg) (v : HostValue) : (s.answer h r v).arg = s.arg := rfl
@[simp] theorem State.answer_argValid (s : State) (h : Nat) (r : HostReg) (v : HostValue) : (s.answer h r v).argValid = s.argValid := rfl
@[simp] theorem State.answer_rem (s : State) (h : Nat) (r : HostReg) (v : HostValue) : (s.answer h r v).rem = s.rem := rfl
@[simp] theorem State.answer_fout (s : State) (h : Nat) (r : HostReg) (v : HostValue) : (s.answer h r v).fout = s.fout := rfl
@[simp] theorem State.answer_status (s : State) (h : Nat) (r : HostReg) (v : HostValue) : (s.answer h r v).status = s.status := rfl
@[simp] theorem State.answer_fault (s : State) (h : Nat) (r : HostReg) (v : HostValue) : (s.answer h r v).fault = s.fault := rfl
@[simp] theorem State.answer_faultcmd (s : State) (h : Nat) (r : HostReg) (v : HostValue) : (s.answer h r v).faultcmd = s.faultcmd := rfl
@[simp] theorem State.answer_remWritten (s : State) (h : Nat) (r : HostReg) (v : HostValue) : (s.answer h r v).remWritten = s.remWritten := rfl
@[simp] theorem State.answer_foutWritten (s : State) (h : Nat) (r : HostReg) (v : HostValue) : (s.answer h r v).foutWritten = s.foutWritten := rfl
@[simp] theorem State.answer_draws (s : State) (h : Nat) (r : HostReg) (v : HostValue) : (s.answer h r v).draws = s.draws := rfl
@[simp] theorem State.answer_port (s : State) (h : Nat) (r : HostReg) (v : HostValue) : (s.answer h r v).port = s.port := rfl
@[simp] theorem State.answer_replies (s : State) (h : Nat) (r : HostReg) (v : HostValue) : (s.answer h r v).replies = s.replies ++ [⟨h, r, v⟩] := rfl

/-! ## Reading a register after writing one -/

@[simp] theorem State.image_writeImage_same (s : State) (r : DReg) (P : Image) : (s.writeImage r P).image r = P := by
  simp [State.image]

@[simp] theorem State.image_writeImage_other (s : State) (r q : DReg) (P : Image) (h : q ≠ r) :
    (s.writeImage r P).image q = s.image q := by
  simp [State.image, h]

@[simp] theorem State.isValid_writeImage_same (s : State) (r : DReg) (P : Image) : (s.writeImage r P).isValid r = true := by
  simp [State.isValid]

@[simp] theorem State.isValid_writeImage_other (s : State) (r q : DReg) (P : Image) (h : q ≠ r) :
    (s.writeImage r P).isValid q = s.isValid q := by
  simp [State.isValid, h]

@[simp] theorem State.cause_raiseFault (s : State) (c : FaultCause) (w : Cmd) : (s.raiseFault c w).cause = c.code := by
  cases c <;> rfl

@[simp] theorem State.faultLatched_raiseFault (s : State) (c : FaultCause) (w : Cmd) :
    (s.raiseFault c w).faultLatched = true := by
  cases c <;> rfl

@[simp] theorem State.code_setCode (s : State) (e : CalcError) : (s.setCode e).code = e.code := by
  cases e <;> rfl

@[simp] theorem State.faultLatched_hostReset (s : State) : s.hostReset.faultLatched = false := rfl

theorem State.faultLatched_congr {s t : State} (h : t.fault = s.fault) : t.faultLatched = s.faultLatched := by
  unfold State.faultLatched State.cause; rw [h]

end Sys2Proof.Machine
end

