-- ==== Sys2Proof/Laws/Ops.lean ====
section
/-! SUPPORT. What each shared operation can do, said once: the checks around a command, the ends of a command, the host's
reads and writes. -/

namespace Sys2Proof.Machine

/-- `execute` does one of five things, by R608's order. -/
theorem execute_cases (s : State) (cmd : Cmd) (legal : Bool) (sources : List Source) (counted : Option DReg)
    (rule : State → State) :
    (s.faultLatched = true ∧ s.execute cmd legal sources counted rule = s) ∨
    (s.faultLatched = false ∧ legal = false ∧
      s.execute cmd legal sources counted rule = s.raiseFault .illegalCommand cmd) ∨
    (s.faultLatched = false ∧ legal = true ∧ sources.all s.sourceValid = false ∧
      s.execute cmd legal sources counted rule = s.raiseFault .uninitializedOperand cmd) ∨
    (s.faultLatched = false ∧ legal = true ∧ sources.all s.sourceValid = true ∧ s.lengthOk counted = false ∧
      s.execute cmd legal sources counted rule = s.raiseFault .invalidLength cmd) ∨
    (s.faultLatched = false ∧ legal = true ∧ sources.all s.sourceValid = true ∧ s.lengthOk counted = true ∧
      s.execute cmd legal sources counted rule = rule s) := by
  unfold State.execute
  cases s.faultLatched <;> cases legal <;> cases sources.all s.sourceValid <;> cases s.lengthOk counted <;> simp

/-- A command that passes every check performs its rule. -/
theorem execute_ready {s : State} {cmd : Cmd} {legal : Bool} {sources : List Source} {counted : Option DReg}
    {rule : State → State} (hf : s.faultLatched = false) (hl : legal = true)
    (hv : ∀ x ∈ sources, s.sourceValid x = true) (hn : ∀ r ∈ counted, (s.dec r).len.toNat ≤ 8) :
    s.execute cmd legal sources counted rule = rule s := by
  have hv' : sources.all s.sourceValid = true := List.all_eq_true.mpr hv
  have hn' : s.lengthOk counted = true := by
    cases counted with
    | none => rfl
    | some r => simpa [State.lengthOk] using hn r rfl
  simp [State.execute, hf, hl, hv', hn']

/-- A command's end either writes D[rd] and noError, or only STATUS. -/
theorem finish_cases (s : State) (rd : DReg) (o : Except CalcError Dec) :
    (∃ x, o = .ok x ∧ s.finish rd o = s.succeed rd x) ∨ (∃ e, o = .error e ∧ s.finish rd o = s.raiseCalc e) := by
  cases o with
  | ok x => exact .inl ⟨x, rfl, rfl⟩
  | error e => exact .inr ⟨e, rfl, rfl⟩

/-- The end of DIVS: the quotient, the remainder and noError, or only STATUS. -/
theorem finishDivision_cases (s : State) (rd : DReg) (o : Except CalcError (Dec × Word)) :
    (∃ q rm, o = .ok (q, rm) ∧ s.finishDivision rd o = (s.succeed rd q).writeRem rm) ∨
    (∃ e, o = .error e ∧ s.finishDivision rd o = s.raiseCalc e) := by
  cases o with
  | ok x => exact .inl ⟨x.1, x.2, rfl, rfl⟩
  | error e => exact .inr ⟨e, rfl, rfl⟩

/-- The rule of each command, alone: what `exec` performs once every check has passed. -/
def commandRule (i : Instr) (s : State) : State :=
  match i with
  | .zero rd => s.succeed rd Dec.canonicalZero
  | .mov rd rs => (s.writeImage rd (s.image rs)).setCode .noError
  | .cvtu64 rd e n => s.succeed rd (decOfMagnitude s.arg e n)
  | .xfld rs f => (s.writeFout (fieldValue (s.dec rs) f)).setCode .noError
  | .sfld rd f => s.succeed rd (setField (s.dec rd) f (s.arg.extractLsb' 0 32))
  | .sfldi rd f v => s.succeed rd (setField (s.dec rd) f (v.setWidth 32))
  | .muls rd rs v => s.finish rd ((s.dec rs).mulScalar v)
  | .adds rd rs v => s.finish rd ((s.dec rs).addScalar v)
  | .divs rd rs v => s.finishDivision rd ((s.dec rs).divScalar v)
  | .adje rd rs k => s.finish rd ((s.dec rs).stepExp k)
  | .compact rd rs => s.succeed rd (s.dec rs).compacted

/-- Every command is its rule behind the same checks. -/
theorem exec_eq_execute (i : Instr) (s : State) :
    exec i s = .next (s.execute (encode i) i.wf (operandsOf i) (countedOperand i) (commandRule i)) := by
  cases i <;> rfl

/-- A command that is ready performs its rule. -/
theorem exec_ready {i : Instr} {s : State} (h : Ready i s) : exec i s = .next (commandRule i s) := by
  rw [exec_eq_execute, execute_ready h.1 h.2.1 h.2.2.1 h.2.2.2]

/-- The register a command writes, if it writes one (R106). -/
def destinationOf : Instr → Option DReg
  | .zero rd | .mov rd _ | .cvtu64 rd _ _ | .sfld rd _ | .sfldi rd _ _ | .muls rd _ _ | .adds rd _ _ | .divs rd _ _
  | .adje rd _ _ | .compact rd _ => some rd
  | .xfld _ _ => none

/-- What a command's rule can do: one arithmetic error and nothing else; or its register, valid with a new image, with
noError; DIVS the remainder too; XFLD the field output alone. -/
theorem commandRule_cases (i : Instr) (s : State) :
    (∃ e, (e = .underflow ∨ e = .overflow ∨ e = .divideByZero) ∧ commandRule i s = s.raiseCalc e) ∨
    (∃ rd P, destinationOf i = some rd ∧ commandRule i s = (s.writeImage rd P).setCode .noError) ∨
    (∃ rd rs v P rm, i = .divs rd rs v ∧ commandRule i s = ((s.writeImage rd P).setCode .noError).writeRem rm) ∨
    (∃ rs f v, i = .xfld rs f ∧ commandRule i s = (s.writeFout v).setCode .noError) := by
  have fin : ∀ (rd : DReg) (o : Except CalcError Dec), destinationOf i = some rd → commandRule i s = s.finish rd o →
      (∀ e, o = .error e → e = .underflow ∨ e = .overflow ∨ e = .divideByZero) →
      (∃ e, (e = .underflow ∨ e = .overflow ∨ e = .divideByZero) ∧ commandRule i s = s.raiseCalc e) ∨
      ∃ rd P, destinationOf i = some rd ∧ commandRule i s = (s.writeImage rd P).setCode .noError := by
    intro rd o hd hr he
    cases o with
    | ok x => exact .inr ⟨rd, encodeImage x, hd, hr⟩
    | error e => exact .inl ⟨e, he e rfl, hr⟩
  have carry : ∀ (d : Dec) (p : List Word) (c : Word) (e : CalcError), d.withCarry p c = .error e → e = .overflow := by
    intro d p c e h
    simp only [Dec.withCarry] at h
    split at h
    · cases h
    · split at h <;> cases h; rfl
  cases i with
  | zero rd => exact .inr (.inl ⟨rd, _, rfl, rfl⟩)
  | mov rd rs => exact .inr (.inl ⟨rd, _, rfl, rfl⟩)
  | cvtu64 rd e n => exact .inr (.inl ⟨rd, _, rfl, rfl⟩)
  | xfld rs f => exact .inr (.inr (.inr ⟨rs, f, _, rfl, rfl⟩))
  | sfld rd f => exact .inr (.inl ⟨rd, _, rfl, rfl⟩)
  | sfldi rd f v => exact .inr (.inl ⟨rd, _, rfl, rfl⟩)
  | muls rd rs v =>
    exact (fin rd _ rfl rfl fun e he => .inr (.inl (carry _ _ _ _ he))).imp_right .inl
  | adds rd rs v =>
    exact (fin rd _ rfl rfl fun e he => .inr (.inl (carry _ _ _ _ he))).imp_right .inl
  | divs rd rs v =>
    rcases finishDivision_cases s rd ((s.dec rs).divScalar v) with ⟨q, rm, -, h⟩ | ⟨e, h, he⟩
    · exact .inr (.inr (.inl ⟨rd, rs, v, encodeImage q, rm, rfl, h⟩))
    · refine .inl ⟨e, ?_, he⟩
      unfold Dec.divScalar at h
      split at h <;> cases h
      exact .inr (.inr rfl)
  | adje rd rs k =>
    refine (fin rd _ rfl rfl fun e he => ?_).imp_right .inl
    simp only [Dec.stepExp] at he
    split at he
    · cases he; exact .inr (.inl rfl)
    · split at he <;> cases he; exact .inl rfl
  | compact rd rs => exact .inr (.inl ⟨rd, _, rfl, rfl⟩)

/-- What a command can do, said once: nothing behind the gate, one fault and nothing else, or its rule. -/
theorem exec_cases {i : Instr} {s t : State} (h : exec i s = .next t) :
    (s.faultLatched = true ∧ t = s) ∨
    (s.faultLatched = false ∧ i.wf = false ∧ t = s.raiseFault .illegalCommand (encode i)) ∨
    (s.faultLatched = false ∧ i.wf = true ∧ (operandsOf i).all s.sourceValid = false ∧
      t = s.raiseFault .uninitializedOperand (encode i)) ∨
    (s.faultLatched = false ∧ i.wf = true ∧ (operandsOf i).all s.sourceValid = true ∧
      s.lengthOk (countedOperand i) = false ∧ t = s.raiseFault .invalidLength (encode i)) ∨
    (s.faultLatched = false ∧ i.wf = true ∧ (operandsOf i).all s.sourceValid = true ∧
      s.lengthOk (countedOperand i) = true ∧ t = commandRule i s) := by
  rw [exec_eq_execute] at h
  obtain rfl : _ = t := by injection h
  exact execute_cases ..

/-- Reading a register adds one answer; the block's own registers stay, and at most one free value is drawn. -/
theorem readReg_cases (s : State) (h : Nat) (r : HostReg) :
    (s.unspecified r = false ∧ s.readReg h r = s.answer h r (s.contents r)) ∨
    (s.unspecified r = true ∧ s.readReg h r = s.drawn.answer h r (drawOf s.draws s r)) := by
  unfold State.readReg
  cases s.unspecified r <;> simp

/-- A host write either writes one valid whole register, changes nothing, or is refused by name. -/
theorem hostWrite_cases (id : Nat) (v : HostValue) (s : State) :
    (∃ r P, HostReg.ofId id = some (.d r) ∧ v = .image P ∧ hostWrite id v s = .next (s.writeImage r P)) ∨
    (∃ a, HostReg.ofId id = some .arg ∧ v = .magnitude a ∧ hostWrite id v s = .next (s.writeArg a)) ∨
    (hostWrite id v s = .next s) ∨
    (∃ e, hostWrite id v s = .refused e) := by
  unfold hostWrite
  rcases h : HostReg.ofId id with _ | r
  · simp
  · cases r <;> cases v <;> simp_all

/-- A pending operation does one of the four host operations. -/
theorem performOp_cases (p : PortOp) (s : State) :
    (∃ id, p.op = .read id ∧ performOp p s = hostRead p.host id s) ∨
    (∃ id v, p.op = .write id v ∧ performOp p s = hostWrite id v s) ∨
    (∃ w, p.op = .issue w ∧ performOp p s = hostIssue w s) ∨
    (p.op = .reset ∧ performOp p s = .next s.hostReset) := by
  unfold performOp
  cases p.op <;> simp

/-- Issuing a word: the gate, an illegal word, or the command it stands for. -/
theorem hostIssue_cases (w : Cmd) (s : State) :
    (s.faultLatched = true ∧ hostIssue w s = .next s) ∨
    (s.faultLatched = false ∧ (∃ e, decode w = .error e) ∧ hostIssue w s = .next (s.raiseFault .illegalCommand w)) ∨
    (s.faultLatched = false ∧ ∃ i, decode w = .ok i ∧ hostIssue w s = exec i s) := by
  unfold hostIssue
  cases hf : s.faultLatched <;> simp
  rcases h : decode w with e | i <;> simp

/-- The step with an operation pending. -/
theorem step_of_port {s : State} {p : PortOp} {rest : List PortOp} (h : s.port = p :: rest) :
    step s = performOp p { s with port := rest } := by
  simp [step, portStep, h]

/-- The step with none pending: the block waits. -/
theorem step_of_idle {s : State} (h : s.port = []) : step s = .next s := by
  simp [step, portStep, h]

end Sys2Proof.Machine
end

