-- ==== Sys2Proof/Laws/Arithmetic.lean ====
section
/-! SUPPORT. What the word chains compute, as integers: the carry chains of MULS and ADDS, the long division of DIVS, the
least length of a magnitude, and writing words back into a record. -/

namespace Sys2Proof.Machine

/-! ## Words and integers -/

theorem wordsValue_append (p q : List Word) :
    wordsValue (p ++ q) = wordsValue p + wordBase ^ p.length * wordsValue q := by
  induction p with
  | nil => simp [wordsValue]
  | cons x xs ih => simp only [List.cons_append, wordsValue, ih, List.length_cons, pow_succ wordBase]; ring

theorem wordsValue_lt (p : List Word) : wordsValue p < wordBase ^ p.length := by
  induction p with
  | nil => simp [wordsValue]
  | cons x xs ih =>
    have hx := x.isLt
    simp only [wordsValue, List.length_cons, pow_succ wordBase, wordBase] at *
    omega

theorem length_wordsOf (n v : Nat) : (wordsOf n v).length = n := by
  induction n generalizing v with
  | zero => rfl
  | succ n ih => simp [wordsOf, ih]

theorem wordsValue_wordsOf (n v : Nat) : wordsValue (wordsOf n v) = v % wordBase ^ n := by
  induction n generalizing v with
  | zero => simp [wordsOf, wordsValue, Nat.mod_one]
  | succ n ih =>
    simp only [wordsOf, wordsValue, ih, BitVec.toNat_ofNat]
    rw [pow_succ wordBase n, Nat.mul_comm (wordBase ^ n) wordBase, Nat.mod_mul]

/-- A list of words is determined by its length and its integer. -/
theorem wordsOf_wordsValue (p : List Word) : wordsOf p.length (wordsValue p) = p := by
  induction p with
  | nil => rfl
  | cons x xs ih =>
    have hx := x.isLt
    have h1 : (x.toNat + wordBase * wordsValue xs) / wordBase = wordsValue xs := by simp only [wordBase]; omega
    have h2 : BitVec.ofNat 16 (x.toNat + wordBase * wordsValue xs) = x := by
      apply BitVec.eq_of_toNat_eq
      simp only [BitVec.toNat_ofNat, wordBase]
      omega
    simp only [List.length_cons, wordsValue, wordsOf, h1, h2, ih]

/-! ## The chains -/

theorem length_mulChain (s : Word) (xs : List Word) (c : Word) : (mulChain s xs c).1.length = xs.length := by
  induction xs generalizing c with
  | nil => rfl
  | cons x xs ih => simp [mulChain, ih]

/-- The carry chain of MULS is the exact product with the carry in, split into the words and the carry out. -/
theorem value_mulChain (s : Word) (xs : List Word) (c : Word) :
    wordsValue (mulChain s xs c).1 + wordBase ^ xs.length * (mulChain s xs c).2.toNat =
      wordsValue xs * s.toNat + c.toNat := by
  induction xs generalizing c with
  | nil => simp [mulChain, wordsValue]
  | cons x xs ih =>
    have hx := x.isLt
    have hs := s.isLt
    have hc := c.isLt
    set t := x.toNat * s.toNat + c.toNat with ht
    have htlt : t / wordBase < 65536 := by
      have : x.toNat * s.toNat ≤ 65535 * 65535 := Nat.mul_le_mul (by omega) (by omega)
      simp only [wordBase]; omega
    have h := ih (BitVec.ofNat 16 (t / wordBase))
    simp only [BitVec.toNat_ofNat] at h
    rw [Nat.mod_eq_of_lt htlt] at h
    have hsplit : t % 65536 + wordBase * (t / wordBase) = t := Nat.mod_add_div t 65536
    simp only [mulChain, wordsValue, List.length_cons, pow_succ wordBase, BitVec.toNat_ofNat, ← ht]
    rw [show (2 : ℕ) ^ 16 = 65536 from rfl]
    calc t % 65536 + wordBase * wordsValue (mulChain s xs (BitVec.ofNat 16 (t / wordBase))).1 +
          wordBase ^ xs.length * wordBase * (mulChain s xs (BitVec.ofNat 16 (t / wordBase))).2.toNat
        = t % 65536 + wordBase * (wordsValue (mulChain s xs (BitVec.ofNat 16 (t / wordBase))).1 +
          wordBase ^ xs.length * (mulChain s xs (BitVec.ofNat 16 (t / wordBase))).2.toNat) := by ring
      _ = t % 65536 + wordBase * (t / wordBase) + wordBase * (wordsValue xs * s.toNat) := by rw [h]; ring
      _ = (x.toNat + wordBase * wordsValue xs) * s.toNat + c.toNat := by rw [hsplit, ht]; ring

theorem length_addChain (xs : List Word) (c : Word) : (addChain xs c).1.length = xs.length := by
  induction xs generalizing c with
  | nil => rfl
  | cons x xs ih => simp [addChain, ih]

/-- The carry chain of ADDS is the exact sum, split into the words and the carry out. -/
theorem value_addChain (xs : List Word) (c : Word) :
    wordsValue (addChain xs c).1 + wordBase ^ xs.length * (addChain xs c).2.toNat = wordsValue xs + c.toNat := by
  induction xs generalizing c with
  | nil => simp [addChain, wordsValue]
  | cons x xs ih =>
    have hx := x.isLt
    have hc := c.isLt
    set t := x.toNat + c.toNat with ht
    have htlt : t / wordBase < 65536 := by simp only [wordBase]; omega
    have h := ih (BitVec.ofNat 16 (t / wordBase))
    simp only [BitVec.toNat_ofNat] at h
    rw [Nat.mod_eq_of_lt htlt] at h
    have hsplit : t % 65536 + wordBase * (t / wordBase) = t := Nat.mod_add_div t 65536
    simp only [addChain, wordsValue, List.length_cons, pow_succ wordBase, BitVec.toNat_ofNat, ← ht]
    rw [show (2 : ℕ) ^ 16 = 65536 from rfl]
    calc t % 65536 + wordBase * wordsValue (addChain xs (BitVec.ofNat 16 (t / wordBase))).1 +
          wordBase ^ xs.length * wordBase * (addChain xs (BitVec.ofNat 16 (t / wordBase))).2.toNat
        = t % 65536 + wordBase * (wordsValue (addChain xs (BitVec.ofNat 16 (t / wordBase))).1 +
          wordBase ^ xs.length * (addChain xs (BitVec.ofNat 16 (t / wordBase))).2.toNat) := by ring
      _ = t % 65536 + wordBase * (t / wordBase) + wordBase * wordsValue xs := by rw [h]; ring
      _ = x.toNat + wordBase * wordsValue xs + c.toNat := by rw [hsplit, ht]; ring

theorem length_divChain (s : Nat) (xs : List Word) : (divChain s xs).1.length = xs.length := by
  induction xs with
  | nil => rfl
  | cons x xs ih => simp [divChain, ih]

/-- Long division: the quotient words and the remainder are the integer quotient and remainder. -/
theorem value_divChain (s : Nat) (hs : 0 < s) (xs : List Word) :
    wordsValue (divChain s xs).1 = wordsValue xs / s ∧ (divChain s xs).2 = wordsValue xs % s := by
  induction xs with
  | nil => simp [divChain, wordsValue]
  | cons x xs ih =>
    obtain ⟨hq, hr⟩ := ih
    have hx := x.isLt
    have hrlt : wordsValue xs % s < s := Nat.mod_lt _ hs
    have hsplit : wordsValue xs = s * (wordsValue xs / s) + wordsValue xs % s := (Nat.div_add_mod ..).symm
    set q := wordsValue xs / s with hqd
    set r := wordsValue xs % s with hrd
    have htot : x.toNat + wordBase * wordsValue xs = r * wordBase + x.toNat + s * (wordBase * q) := by
      rw [hsplit]; ring
    have hdig : (r * wordBase + x.toNat) / s < 65536 := by
      rw [Nat.div_lt_iff_lt_mul hs]
      simp only [wordBase]
      nlinarith
    simp only [divChain, wordsValue, hq, hr, BitVec.toNat_ofNat]
    rw [htot, Nat.add_mul_div_left _ _ hs, Nat.add_mul_mod_self_left, Nat.mod_eq_of_lt hdig]
    exact ⟨rfl, rfl⟩

/-! ## Least lengths -/

/-- `digitCount` finds the least number of base-2^16 digits that holds an integer. -/
theorem digitCount_le_iff (k v L : Nat) (hv : v < wordBase ^ k) : digitCount k v ≤ L ↔ v < wordBase ^ L := by
  induction k generalizing v L with
  | zero => simp at hv; subst hv; simp [digitCount, wordBase]
  | succ k ih =>
    unfold digitCount
    split
    · next h => subst h; simp [wordBase]
    · next h =>
      cases L with
      | zero => simp; omega
      | succ L =>
        have : v / wordBase < wordBase ^ k := by
          rw [Nat.div_lt_iff_lt_mul (by decide)]; rwa [pow_succ] at hv
        rw [Nat.add_le_add_iff_right, ih _ _ this, Nat.div_lt_iff_lt_mul (by decide), pow_succ]

theorem trimmedLength_eq_digitCount (q : List Word) : trimmedLength q = digitCount q.length (wordsValue q) := by
  induction q with
  | nil => rfl
  | cons x xs ih =>
    have hx := x.isLt
    have hdiv : (x.toNat + wordBase * wordsValue xs) / wordBase = wordsValue xs := by simp only [wordBase]; omega
    have hz : x = 0 ↔ x.toNat = 0 := by
      constructor
      · rintro rfl; rfl
      · intro h; exact BitVec.eq_of_toNat_eq h
    have hcount : digitCount xs.length (wordsValue xs) = 0 ↔ wordsValue xs = 0 := by
      rw [← Nat.le_zero, digitCount_le_iff _ _ _ (wordsValue_lt xs)]; simp
    simp only [trimmedLength, wordsValue, List.length_cons, digitCount, hdiv, ih]
    rcases h : digitCount xs.length (wordsValue xs) with _ | n
    · have h0 := hcount.mp h
      simp only [h0, wordBase, Nat.mul_zero, Nat.add_zero, hz]
    · have h0 : wordsValue xs ≠ 0 := fun e => by rw [hcount.mpr e] at h; omega
      have : ¬ (x.toNat + wordBase * wordsValue xs = 0) := by simp only [wordBase]; omega
      rw [if_neg this]

/-- More fuel than digits changes nothing. -/
theorem digitCount_fuel (j k v : Nat) (hj : v < wordBase ^ j) (hk : v < wordBase ^ k) :
    digitCount j v = digitCount k v := by
  apply le_antisymm
  · rw [digitCount_le_iff _ _ _ hj, ← digitCount_le_iff _ _ _ hk]
  · rw [digitCount_le_iff _ _ _ hk, ← digitCount_le_iff _ _ _ hj]

/-! ## Words written back into a record -/

theorem toList_withWords (d : Dec) (p : List Word) (hp : p.length ≤ 8) :
    (d.withWords p).w.toList = p ++ d.w.toList.drop p.length := by
  apply List.ext_getElem
  · simp; omega
  · intro i h1 h2
    simp only [Vector.length_toList] at h1
    rw [List.getElem_append]
    split
    · next h => simp [Dec.withWords, h]
    · next h =>
      have h' : p.length ≤ i := by omega
      simp [Dec.withWords, h', List.getElem_drop, Nat.add_sub_cancel' h']

theorem length_active (d : Dec) (h : d.len.toNat ≤ 8) : d.active.length = d.len.toNat := by
  simp [Dec.active, h]

/-- The words of a result, and the length that counts them. -/
theorem mag_withResult (d : Dec) (p : List Word) (n : Nat) (hn : n ≤ p.length) (hp : p.length ≤ 8) :
    (d.withResult p n).mag = wordsValue (p.take n) := by
  have hn16 : n < 16 := by omega
  have : (d.withResult p n).active = p.take n := by
    simp only [Dec.active, Dec.withResult]
    rw [toList_withWords d p hp, BitVec.toNat_ofNat, Nat.mod_eq_of_lt (by simpa using hn16), List.take_append_of_le_length hn]
  rw [Dec.mag, this]

end Sys2Proof.Machine
end

