-- ==== Sys2Proof/Laws/Assembler.lean ====
section
/-! SUPPORT. What the assembler's text functions do: cutting a text at its commas, dropping blanks, reading digits. -/

namespace Sys2Proof.Machine

/-- A text without the separator is one part. -/
theorem splitText_of_not_mem (sep : Char) (t : List Char) (h : sep ∉ t) : splitText sep t = [t] := by
  induction t with
  | nil => rfl
  | cons c cs ih =>
    simp only [List.mem_cons, not_or] at h
    simp [splitText, ih h.2, Ne.symm h.1]

/-- There is always a first part. -/
theorem splitText_ne_nil (sep : Char) (t : List Char) : splitText sep t ≠ [] := by
  cases t with
  | nil => simp [splitText]
  | cons c cs =>
    simp only [splitText]
    split
    · simp
    · split <;> simp

/-- The parts of a text are the text before its first separator and the parts of what follows. -/
theorem splitText_append (sep : Char) (t r : List Char) (h : sep ∉ t) :
    splitText sep (t ++ sep :: r) = t :: splitText sep r := by
  induction t with
  | nil =>
    obtain ⟨x, xs, hr⟩ := List.exists_cons_of_ne_nil (splitText_ne_nil sep r)
    simp [splitText, hr]
  | cons c cs ih =>
    simp only [List.mem_cons, not_or] at h
    simp [splitText, ih h.2, Ne.symm h.1]

theorem dropWhile_blank_of_not_mem (t : List Char) (h : ' ' ∉ t) : t.dropWhile (· = ' ') = t := by
  cases t with
  | nil => rfl
  | cons c cs =>
    simp only [List.mem_cons, not_or] at h
    simp [Ne.symm h.1]

/-- A text without blanks is not changed, -/
theorem trimText_of_not_mem (t : List Char) (h : ' ' ∉ t) : trimText t = t := by
  rw [trimText, dropWhile_blank_of_not_mem t h, dropWhile_blank_of_not_mem _ (by simpa using h), List.reverse_reverse]

/-- and a blank before it is dropped. -/
theorem trimText_blank_cons (t : List Char) : trimText (' ' :: t) = trimText t := by
  simp [trimText]

/-- Digits are read from the left, each after the number read before it. -/
theorem numberFrom_append (base acc : Nat) (xs ys : List Char) :
    numberFrom base acc (xs ++ ys) = (numberFrom base acc xs).bind fun n => numberFrom base n ys := by
  induction xs generalizing acc with
  | nil => rfl
  | cons c cs ih =>
    simp only [List.cons_append, numberFrom]
    split
    · exact ih _
    · rfl

end Sys2Proof.Machine
end

