-- ==== Sys2Proof/Laws/Encoding.lean ====
section
/-! SUPPORT. Bit fields as numbers, the fields of a command word put together and taken apart, and the register and selector
numbers. -/

namespace Sys2Proof

/-- A concatenation as a number. -/
theorem toNat_concat {n m : Nat} (x : BitVec n) (y : BitVec m) : (x ++ y).toNat = x.toNat * 2 ^ m + y.toNat := by
  rw [BitVec.toNat_append, ← Nat.shiftLeft_add_eq_or_of_lt y.isLt, Nat.shiftLeft_eq]

/-- A bit field as a number. -/
theorem toNat_field {n : Nat} (x : BitVec n) (lo len : Nat) :
    (x.extractLsb' lo len).toNat = x.toNat / 2 ^ lo % 2 ^ len := by
  rw [BitVec.extractLsb'_toNat, Nat.shiftRight_eq_div_pow]

/-- A single bit as a number. -/
theorem toNat_ofBool_bit {n : Nat} (x : BitVec n) (i : Nat) :
    (BitVec.ofBool (x.getLsbD i)).toNat = x.toNat / 2 ^ i % 2 := by
  rw [BitVec.toNat_ofBool, BitVec.getLsbD, Nat.testBit_eq_decide_div_mod_eq]
  have := Nat.mod_two_eq_zero_or_one (x.toNat / 2 ^ i)
  rcases this with h | h <;> simp [h]

/-- The bit of a number, from the bit written as a word of one bit. -/
theorem getLsbD_iff_field {n : Nat} (x : BitVec n) (i : Nat) :
    x.getLsbD i = decide (x.toNat / 2 ^ i % 2 = 1) := by
  rw [BitVec.getLsbD, Nat.testBit_eq_decide_div_mod_eq]

theorem toNat_packCmd (op : BitVec 8) (rd rs : BitVec 2) (fs : BitVec 4) (imm : Word) :
    (packCmd op rd rs fs imm).toNat =
      op.toNat * 2 ^ 24 + rd.toNat * 2 ^ 22 + rs.toNat * 2 ^ 20 + fs.toNat * 2 ^ 16 + imm.toNat := by
  unfold packCmd
  simp only [toNat_concat]
  omega

@[simp] theorem fieldOp_packCmd (op : BitVec 8) (rd rs : BitVec 2) (fs : BitVec 4) (imm : Word) :
    fieldOp (packCmd op rd rs fs imm) = op := by
  apply BitVec.eq_of_toNat_eq
  rw [fieldOp, toNat_field, toNat_packCmd]
  omega

@[simp] theorem fieldRd_packCmd (op : BitVec 8) (rd rs : BitVec 2) (fs : BitVec 4) (imm : Word) :
    fieldRd (packCmd op rd rs fs imm) = rd := by
  apply BitVec.eq_of_toNat_eq
  rw [fieldRd, toNat_field, toNat_packCmd]
  omega

@[simp] theorem fieldRs_packCmd (op : BitVec 8) (rd rs : BitVec 2) (fs : BitVec 4) (imm : Word) :
    fieldRs (packCmd op rd rs fs imm) = rs := by
  apply BitVec.eq_of_toNat_eq
  rw [fieldRs, toNat_field, toNat_packCmd]
  omega

@[simp] theorem fieldFs_packCmd (op : BitVec 8) (rd rs : BitVec 2) (fs : BitVec 4) (imm : Word) :
    fieldFs (packCmd op rd rs fs imm) = fs := by
  apply BitVec.eq_of_toNat_eq
  rw [fieldFs, toNat_field, toNat_packCmd]
  omega

@[simp] theorem fieldImm_packCmd (op : BitVec 8) (rd rs : BitVec 2) (fs : BitVec 4) (imm : Word) :
    fieldImm (packCmd op rd rs fs imm) = imm := by
  apply BitVec.eq_of_toNat_eq
  rw [fieldImm, toNat_field, toNat_packCmd]
  omega

/-- A word is its five fields put together. -/
theorem packCmd_fields (w : Cmd) : packCmd (fieldOp w) (fieldRd w) (fieldRs w) (fieldFs w) (fieldImm w) = w := by
  apply BitVec.eq_of_toNat_eq
  rw [toNat_packCmd]
  simp only [fieldOp, fieldRd, fieldRs, fieldFs, fieldImm, toNat_field]
  omega

@[simp] theorem immExp_packImm (e : BitVec 8) (n : Bool) : immExp (packImm e n) = e := by
  apply BitVec.eq_of_toNat_eq
  rw [immExp, packImm, toNat_field, toNat_concat, toNat_concat]
  have := e.isLt
  cases n <;> simp <;> omega

@[simp] theorem immSign_packImm (e : BitVec 8) (n : Bool) : immSign (packImm e n) = n := by
  rw [immSign, packImm, getLsbD_iff_field, toNat_concat, toNat_concat]
  have := e.isLt
  cases n <;> simp <;> omega

@[simp] theorem immHigh_packImm (e : BitVec 8) (n : Bool) : immHigh (packImm e n) = 0 := by
  apply BitVec.eq_of_toNat_eq
  rw [immHigh, packImm, toNat_field, toNat_concat, toNat_concat]
  have := e.isLt
  cases n <;> simp <;> omega

/-- An immediate with nothing in its high bits is its exponent and sign put together. -/
theorem packImm_fields (w : Word) (h : immHigh w = 0) : packImm (immExp w) (immSign w) = w := by
  apply BitVec.eq_of_toNat_eq
  have h' : (immHigh w).toNat = 0 := by rw [h]; rfl
  rw [immHigh, toNat_field] at h'
  rw [packImm, toNat_concat, toNat_concat, immSign, toNat_ofBool_bit, immExp, toNat_field]
  have := w.isLt
  have hz : (0 : BitVec 7).toNat = 0 := rfl
  omega

@[simp] theorem DReg.ofCode_code (r : DReg) : DReg.ofCode r.code = r := by cases r <;> rfl

@[simp] theorem DReg.code_ofCode (c : BitVec 2) : (DReg.ofCode c).code = c := by
  revert c; decide

@[simp] theorem Field.ofCode_code (f : Field) : Field.ofCode f.code = some f := by
  cases f with
  | w i => revert i; decide
  | _ => rfl

theorem Field.code_of_ofCode (c : BitVec 4) (f : Field) (h : Field.ofCode c = some f) : f.code = c := by
  revert f h
  revert c
  decide

@[simp] theorem Opcode.ofCode_code (o : Opcode) : Opcode.ofCode o.code = some o := by cases o <;> rfl

theorem Opcode.code_of_ofCode (c : BitVec 8) (o : Opcode) (h : Opcode.ofCode c = some o) : o.code = c := by
  revert o h
  revert c
  decide

/-- A word decodes exactly when its opcode is one of the eleven and the rest of the word suits it. -/
theorem decode_ok_iff (w : Cmd) (i : Instr) :
    decode w = .ok i ↔ ∃ op : Opcode, fieldOp w = op.code ∧ decodeOp op w = .ok i := by
  unfold decode
  constructor
  · intro h
    rcases ho : Opcode.ofCode (fieldOp w) with _ | op
    · simp [ho] at h
    · exact ⟨op, (Opcode.code_of_ofCode _ _ ho).symm, by simpa [ho] using h⟩
  · rintro ⟨op, ho, h⟩
    simpa [ho] using h

theorem requireZero_ok_iff (w : Cmd) (b : Bool) (x : Except Reject Instr) (i : Instr) :
    requireZero w b x = .ok i ↔ b = true ∧ x = .ok i := by
  cases b <;> simp [requireZero]

theorem selectReadable_ok_iff (fs : BitVec 4) (f : Field) : selectReadable fs = .ok f ↔ fs = f.code := by
  constructor
  · intro h
    rcases hf : Field.ofCode fs with _ | g
    · simp [selectReadable, hf] at h
    · have : g = f := by simpa [selectReadable, hf] using h
      subst this
      exact (Field.code_of_ofCode _ _ hf).symm
  · rintro rfl
    simp [selectReadable]

theorem selectWritable_ok_iff (fs : BitVec 4) (f : Field) :
    selectWritable fs = .ok f ↔ fs = f.code ∧ f.writable = true := by
  constructor
  · intro h
    rcases hf : Field.ofCode fs with _ | g
    · simp [selectWritable, hf] at h
    · have : g.writable = true ∧ g = f := by
        cases hw : g.writable <;> simp_all [selectWritable]
      obtain ⟨hw, rfl⟩ := this
      exact ⟨(Field.code_of_ofCode _ _ hf).symm, hw⟩
  · rintro ⟨rfl, hw⟩
    simp [selectWritable, hw]

end Sys2Proof
end

