-- ==== Sys2Proof/Laws/PerInstr.lean ====
section
/-! SUPPORT. One family of statements about every command as syntax: its word carries the opcode of its table row. -/

namespace Sys2Proof.Laws

/-- The opcode field of a command's word is the opcode of its row (R309). -/
def OpcodeField.Statement (i : Instr) : Prop := fieldOp (encode i) = i.opcode.code

theorem OpcodeField.zero (rd : DReg) : OpcodeField.Statement (.zero rd) := fieldOp_packCmd ..
theorem OpcodeField.mov (rd rs : DReg) : OpcodeField.Statement (.mov rd rs) := fieldOp_packCmd ..
theorem OpcodeField.cvtu64 (rd : DReg) (e : BitVec 8) (n : Bool) : OpcodeField.Statement (.cvtu64 rd e n) :=
  fieldOp_packCmd ..
theorem OpcodeField.xfld (rs : DReg) (f : Field) : OpcodeField.Statement (.xfld rs f) := fieldOp_packCmd ..
theorem OpcodeField.sfld (rd : DReg) (f : Field) : OpcodeField.Statement (.sfld rd f) := fieldOp_packCmd ..
theorem OpcodeField.sfldi (rd : DReg) (f : Field) (v : Word) : OpcodeField.Statement (.sfldi rd f v) := fieldOp_packCmd ..
theorem OpcodeField.muls (rd rs : DReg) (v : Word) : OpcodeField.Statement (.muls rd rs v) := fieldOp_packCmd ..
theorem OpcodeField.adds (rd rs : DReg) (v : Word) : OpcodeField.Statement (.adds rd rs v) := fieldOp_packCmd ..
theorem OpcodeField.divs (rd rs : DReg) (v : Word) : OpcodeField.Statement (.divs rd rs v) := fieldOp_packCmd ..
theorem OpcodeField.adje (rd rs : DReg) (k : Word) : OpcodeField.Statement (.adje rd rs k) := fieldOp_packCmd ..
theorem OpcodeField.compact (rd rs : DReg) : OpcodeField.Statement (.compact rd rs) := fieldOp_packCmd ..

end Sys2Proof.Laws
end

