-- ==== Sys2Proof/Tests/Slice0.lean ====
section
/-! SUPPORT. Tests on fixed values. The vectors are those of spec/95_test_vectors.md, named by their row; words are written
out from the forms of rule R313; a witness shows states and operands that meet the hypotheses of the statement it names. -/

namespace Sys2Proof.Tests

open Sys2Proof.Machine

-- One theorem at a time: a thread for each of them at once would exceed the memory limit of the check.
set_option Elab.async false

/-! ## States to test on -/

/-- An image from its five 32-bit words, in the order in which 95_test_vectors.md writes them. -/
def img (w0 w1 w2 w3 w4 : BitVec 32) : Image := imageOfViews w0 w1 w2 w3 w4

/-- The largest mantissa, MAX of 95_test_vectors.md section 2.2. -/
def maxImage : Image := img 0x00008000 0xFFFFFFFF 0xFFFFFFFF 0xFFFFFFFF 0xFFFFFFFF

/-- A reset block in which D0 alone is valid. -/
def withD0 (P : Image) : State := State.reset.writeImage .d0 P

/-- Every register valid: D0 the XFLD sample, D1 the largest mantissa, D2 of length 12, D3 the NaN pattern. -/
def bench : State :=
  { State.reset with
    d := ⟨img 0xABCD3EFE 0x00020001 0xBEEF0003 0 0, maxImage, img 0x0000C000 0 0 0 0, img 0x00000800 0 0 0 0⟩
    valid := Bank.all true
    arg := 0x3ABCD
    argValid := true }

/-- `bench` with a fault latched. -/
def faulted : State := { bench with fault := 1, faultcmd := 0x99000000 }

/-- The next state, if there is one. -/
def after : Host.Outcome State Fault Refusal → Option State
  | .next s => some s
  | .fault _ => none
  | .refused _ => none

/-- One step of a block at which the word is issued. -/
def issued (w : Nat) (s : State) : Option State := after (step (s.withFetchWord 32 w))

/-! ## Ill-formed terms (R308, R310) -/

theorem test_wf_refuses_composing_isnan :
    (Instr.sfld .d0 .isNaN).wf = false ∧ (Instr.sfldi .d0 .isNaN 1).wf = false ∧ (Instr.xfld .d0 .isNaN).wf = true := by
  decide

theorem test_decode_refuses_ill_formed_words :
    decode (encode (.sfld .d0 .isNaN)) = .error (.badSelector 5) ∧
    decode 0x04270000 = .error (.badSelector 7) ∧
    decode 0x01000001 = .error (.mustBeZero 0x01000001) ∧
    decode 0x80000000 = .error (.unknownOpcode 0x80) := by decide

/-! ## A word of every command, written out from R313 -/

theorem test_decode_zero : decode 0b00000001_10_00_0000_0000000000000000 = .ok (.zero .d2) := by decide
theorem test_decode_mov : decode 0b00000010_01_00_0000_0000000000000000 = .ok (.mov .d1 .d0) := by decide
theorem test_decode_cvtu64 : decode 0b00000011_01_00_0000_0000000111111110 = .ok (.cvtu64 .d1 0xFE true) := by decide
theorem test_decode_xfld : decode 0b00000100_00_10_1011_0000000000000000 = .ok (.xfld .d2 (.w 3)) := by decide
theorem test_decode_sfld : decode 0b00000101_11_00_0100_0000000000000000 = .ok (.sfld .d3 .rsv) := by decide
theorem test_decode_sfldi : decode 0b00000110_00_00_0010_0000000000000001 = .ok (.sfldi .d0 .neg 1) := by decide
theorem test_decode_muls : decode 0b00010000_01_00_0000_0000000000001010 = .ok (.muls .d1 .d0 10) := by decide
theorem test_decode_adds : decode 0b00010001_01_01_0000_0000000000000001 = .ok (.adds .d1 .d1 1) := by decide
theorem test_decode_divs : decode 0b00010010_10_01_0000_0000000000000111 = .ok (.divs .d2 .d1 7) := by decide
theorem test_decode_adje : decode 0b00010011_00_00_0000_1111111110000001 = .ok (.adje .d0 .d0 0xFF81) := by decide
theorem test_decode_compact : decode 0b00100000_10_00_0000_0000000000000000 = .ok (.compact .d2 .d0) := by decide

/-- The assembler's lines of 95_test_vectors.md (section 1.1, E8, I-E1) and a pseudo-instruction. -/
theorem test_assemble_lines :
    (assemble "CVTU64 D1, #-2, #1").map encode = some 0x034001FE ∧
    (assemble "SFLDI D0, EXP, #0x1FF").map encode = some 0x060001FF ∧
    (assemble "ADJE D0, D0, #-127").map encode = some 0x1300FF81 ∧
    (assemble "DIV10 D1").map encode = some 0x1250000A := by decide +kernel

/-! ## One step of each command -/

/-- S1. -/
theorem test_zero_S1 : (issued 0x01800000 State.reset).map (fun t => (t.image .d2, t.valid)) =
    some (0, ⟨false, false, true, false⟩) := by decide +kernel

/-- S4: a length of 12 is copied. -/
theorem test_mov_S4 : (issued 0x02400000 (withD0 (img 0x0000C000 0 0 0 0))).map (fun t => (t.image .d1, t.fault)) =
    some (img 0x0000C000 0 0 0 0, 0) := by decide +kernel

/-- S9. -/
theorem test_cvtu64_S9 : (issued 0x038001FE (State.reset.writeArg 0x000123456789ABCD)).map (fun t => t.image .d2) =
    some (img 0x000048FE 0x6789ABCD 0x00012345 0 0) := by decide +kernel

/-- S6: a negative zero magnitude is the NaN pattern. -/
theorem test_cvtu64_S6 : (issued 0x03000100 (State.reset.writeArg 0)).map (fun t => t.image .d0) =
    some (img 0x00000800 0 0 0 0) := by decide +kernel

/-- X0: the exponent is sign-extended. -/
theorem test_xfld_X0 : (issued 0x04000000 bench).map (fun t => t.fout) = some 0xFFFFFFFE := by decide +kernel

/-- X4: all 18 bits of the reserved field. -/
theorem test_xfld_X4 : (issued 0x04040000 bench).map (fun t => t.fout) = some 0x0002ABCD := by decide +kernel

/-- F-C1. -/
theorem test_sfld_FC1 : (issued 0x05060000 (bench.writeArg 0xAB)).map (fun t => t.image .d0) =
    some (img 0xABCDABFE 0x00020001 0xBEEF0003 0 0) := by decide +kernel

/-- F-A1: the high half of ARG is not used. -/
theorem test_sfld_FA1 : (issued 0x05080000 ((withD0 0).writeArg 0xFFFFFFFF00000007)).map (fun t => t.image .d0) =
    some (img 0 0x00000007 0 0 0) := by decide +kernel

/-- I-R1: the immediate clears the two high reserved bits. -/
theorem test_sfldi_IR1 : (issued 0x0604FFFF (withD0 (img 0xABCD0300 0 0 0 0))).map (fun t => t.image .d0) =
    some (img 0xFFFF0000 0 0 0 0) := by decide +kernel

/-- I-L1: the high immediate bits are dropped. -/
theorem test_sfldi_IL1 : (issued 0x06010012 (withD0 0)).map (fun t => t.image .d0) =
    some (img 0x00002000 0 0 0 0) := by decide +kernel

/-- M12: a carry into a fifth word. -/
theorem test_muls_M12 : (issued 0x1000FFFF (withD0 (img 0x00004000 0xFFFFFFFF 0xFFFFFFFF 0 0))).map
      (fun t => (t.image .d0, t.status)) =
    some (img 0x00005000 0xFFFF0001 0xFFFFFFFF 0x0000FFFE 0, 0) := by decide +kernel

/-- M7: 2^128 overflows and the register stays. -/
theorem test_muls_M7 : (issued 0x10000002 (withD0 (img 0x00008000 0 0 0 0x80000000))).map
      (fun t => (t.image .d0, t.status)) =
    some (img 0x00008000 0 0 0 0x80000000, 3) := by decide +kernel

/-- A7: the carry ripples through two full words. -/
theorem test_adds_A7 : (issued 0x11000001 (withD0 (img 0x00002000 0xFFFFFFFF 0 0 0))).map
      (fun t => (t.image .d0, t.status)) =
    some (img 0x00003000 0 0x00000001 0 0, 0) := by decide +kernel

/-- A4: a carry out of word 7. -/
theorem test_adds_A4 : (issued 0x11000001 (withD0 maxImage)).map (fun t => (t.image .d0, t.status)) =
    some (maxImage, 3) := by decide +kernel

/-- V6. -/
theorem test_divs_V6 : (issued 0x1200000A (withD0 maxImage)).map (fun t => (t.image .d0, t.rem)) =
    some (img 0x00008000 0x99999999 0x99999999 0x99999999 0x19999999, 5) := by decide +kernel

/-- V10: words beyond the old length are kept. -/
theorem test_divs_V10 : (issued 0x12000003 (withD0 (img 0x00003000 0 0x00090000 0 0x00550000))).map
      (fun t => (t.image .d0, t.rem)) =
    some (img 0 0 0x00090000 0 0x00550000, 0) := by decide +kernel

/-- E8: the bottom of the range, exactly. -/
theorem test_adje_E8 : (issued 0x1300FF81 (withD0 (img 0x000000FF 0 0 0 0))).map (fun t => (t.image .d0, t.status)) =
    some (img 0x00000080 0 0 0 0, 0) := by decide +kernel

/-- E2: one below the bottom. -/
theorem test_adje_E2 : (issued 0x1300FFFF (withD0 (img 0x00000080 0 0 0 0))).map (fun t => (t.image .d0, t.status)) =
    some (img 0x00000080 0 0 0 0, 2) := by decide +kernel

/-- N8: a word beyond the length does not count. -/
theorem test_compact_N8 : (issued 0x20000000 (withD0 (img 0x00001800 0 0x00070000 0 0))).map (fun t => t.image .d0) =
    some (img 0x00000400 0 0x00070000 0 0) := by decide +kernel

/-- N4: the NaN pattern passes through. -/
theorem test_compact_N4 : (issued 0x20000000 (withD0 (img 0x23450905 0 0 0 0))).map (fun t => t.image .d0) =
    some (img 0x23450905 0 0 0 0) := by decide +kernel

/-! ## Faults, the gate and the host's operations -/

/-- T9: an illegal word comes before an unwritten operand. -/
theorem test_fault_T9 : (issued 0x10010005 State.reset).map (fun t => (t.fault, t.faultcmd)) =
    some (1, 0x10010005) := by decide +kernel

/-- T13. -/
theorem test_fault_T13 : (issued 0x05410000 State.reset).map (fun t => (t.fault, t.faultcmd)) =
    some (2, 0x05410000) := by decide +kernel

/-- T15: a length of 12 comes before the divisor 0. -/
theorem test_fault_T15 : (issued 0x12000000 (withD0 (img 0x0000C000 0 0 0 0))).map (fun t => (t.fault, t.status)) =
    some (3, 0) := by decide +kernel

/-- T19: the gate. -/
theorem test_fault_T19 : (issued 0x01000000 faulted).map (fun t => (t.image .d0, t.faultcmd)) =
    some (faulted.image .d0, 0x99000000) := by decide +kernel

/-- T20: reset opens the gate. -/
theorem test_reset_T20 : (after (performOp ⟨0, .reset⟩ faulted)).map (fun t => (t.fault, t.valid, t.argValid)) =
    some (0, Bank.all false, false) := rfl

/-- P7 step 4: the host reads FAULTCMD while the fault is latched. -/
theorem test_read_P7 : (after (performOp ⟨0, .read 9⟩ faulted)).map (fun t => t.replies) =
    some [⟨0, .faultcmd, .word 0x99000000⟩] := by decide +kernel

/-! ## Witnesses: the hypotheses of each statement are met -/

theorem witness_DecodeInvertsEncode : (Instr.sfld .d3 .ctrl).wf = true ∧ (Instr.sfldi .d0 (.w 7) 0xFFFF).wf = true := by
  decide

theorem witness_EncodeInvertsDecode : decode 0x20FFFFFF ≠ .ok (.compact .d3 .d3) ∧
    decode 0x20F00000 = .ok (.compact .d3 .d3) := by decide

/-- No command decodes to a word the decoder rejects. -/
theorem no_command {w : Cmd} {e : Reject} (h : decode w = .error e) (i : Instr) : decode w ≠ .ok i := by
  rw [h]; intro h'; cases h'

theorem witness_WordLegalExactlyByTable :
    (∀ i, decode 0x04270000 ≠ .ok i) ∧
    ({ bench with port := [⟨0, .issue 0x04270000⟩] } : State).faultLatched = false ∧
    0x80 ≤ (fieldOp 0x80000000).toNat ∧ fieldOp 0x05050000 = 0x05 ∧ fieldFs 0x05050000 = 5 := by
  exact ⟨no_command (e := .badSelector 7) (by decide), by decide +kernel⟩

theorem witness_MustBeZeroFieldsAreThese :
    fieldOp 0x01000001 = 0x01 ∧ fieldOp 0x020F0000 = 0x02 ∧ (fieldOp 0x03000200 = 0x03) ∧
    (fieldOp 0x04060000 = 0x04 ∧ fieldFs 0x04060000 ≠ 7) ∧
    (fieldOp 0x05040000 = 0x05 ∧ fieldFs 0x05040000 ≠ 5 ∧ fieldFs 0x05040000 ≠ 7) ∧
    (fieldOp 0x06080000 = 0x06 ∧ fieldFs 0x06080000 ≠ 5 ∧ fieldFs 0x06080000 ≠ 7) ∧
    fieldOp 0x10010005 = 0x10 ∧ fieldOp 0x13000000 = 0x13 ∧ fieldOp 0x20010000 = 0x20 := by decide

theorem witness_StepRunsTheIssuedCommand :
    ({ bench with port := [⟨0, .issue 0x1000000A⟩] } : State).port = ⟨0, .issue 0x1000000A⟩ :: [] ∧
    decode 0x1000000A = .ok (.muls .d0 .d0 10) ∧ bench.port = [] := ⟨rfl, by decide, rfl⟩

theorem witness_PlacedTableWordRunsNext : decodeTableWord 32 0x1000000A = some (.muls .d0 .d0 10) := by decide

/-- The ends of each range and one beyond, and a line that meets the premises on texts. -/
theorem witness_AssemblerReadsTheFormsInRange :
    assembleForm "ADDS" [.reg .d0, .reg .d1, .imm 0] = some (.adds .d0 .d1 0) ∧
    assembleForm "DIVS" [.reg .d0, .reg .d1, .imm 65535] = some (.divs .d0 .d1 0xFFFF) ∧
    assembleForm "ADDD" [.reg .d0, .imm 65536] = none ∧ assembleForm "MULS" [.reg .d0, .reg .d1, .imm (-1)] = none ∧
    assembleForm "ADJE" [.reg .d0, .reg .d1, .imm (-32768)] = some (.adje .d0 .d1 0x8000) ∧
    assembleForm "ADJE" [.reg .d0, .reg .d1, .imm 32767] = some (.adje .d0 .d1 0x7FFF) ∧
    assembleForm "ADJE" [.reg .d0, .reg .d1, .imm (-32769)] = none ∧
    assembleForm "ADJE" [.reg .d0, .reg .d1, .imm 32768] = none ∧
    assembleForm "CVTU64" [.reg .d0, .imm (-128), .imm 1] = some (.cvtu64 .d0 0x80 true) ∧
    assembleForm "CVTU64" [.reg .d0, .imm 127, .imm 0] = some (.cvtu64 .d0 0x7F false) ∧
    assembleForm "CVTU64" [.reg .d0, .imm 128, .imm 0] = none ∧ assembleForm "CVTU64" [.reg .d0, .imm 0, .imm 2] = none ∧
    (['M', 'U', 'L', 'S'] ≠ [] ∧ (∀ c ∈ ['M', 'U', 'L', 'S'], c ≠ ' ') ∧ [['D', '0'], ['D', '1'], ['#', '9']] ≠ [] ∧
      ∀ text ∈ [['D', '0'], ['D', '1'], ['#', '9']], text ≠ [] ∧ ∀ c ∈ text, c ≠ ' ' ∧ c ≠ ',') ∧
    assemble "MULS D0,D1,#0xFf" = some (.muls .d0 .d1 0xFF) := by
  refine ⟨?_, ?_, ?_, ?_, ?_, ?_, ?_, ?_, ?_, ?_, ?_, ?_, ?_, ?_⟩ <;> first | decide +kernel | simp

theorem witness_WordViewsOfAnImage : imageView maxImage 4 = 0xFFFFFFFF ∧ imageView maxImage 0 = 0x00008000 := by
  decide +kernel

theorem witness_BytesOfAnImage : imageByte maxImage 19 = 0xFF ∧ imageByte maxImage 1 = 0x80 := by decide +kernel

theorem witness_WordCountIsLeast : 2 ^ 128 - 1 < 2 ^ 128 ∧ 2 ^ 128 - 1 < 2 ^ (16 * 8) ∧ 0 < 2 ^ (16 * 0) := by decide

theorem witness_WithMagReplacesLowWords :
    (2 ^ 128 - 1 < 2 ^ (16 * 8) ∧ 8 ≤ 8 ∧ 15 ≤ 15) ∧ (0 < 2 ^ (16 * 0) ∧ 0 ≤ 8 ∧ 0 ≤ 15) := by decide

theorem witness_ComposingAFieldChangesOnlyIt : Field.w 7 ≠ .isNaN ∧ 159 < 160 ∧ Field.exp ≠ .isNaN ∧ 0 < 160 := by decide

theorem witness_ZeroWritesTheZeroImage : State.reset.faultLatched = false := by decide

theorem witness_MovCopiesTheImage : bench.faultLatched = false ∧ bench.isValid .d2 = true := by decide

theorem witness_CvtuBuildsFromArg :
    (bench.faultLatched = false ∧ bench.argValid = true) ∧
    bench.arg.toNat < 2 ^ (16 * 2) ∧ (State.reset.writeArg 0).arg.toNat < 2 ^ (16 * 0) := by decide

theorem witness_XfldExtractsTheField : bench.faultLatched = false ∧ bench.isValid .d3 = true := by decide

theorem witness_SfldAndSfldiComposeTheField :
    bench.faultLatched = false ∧ Field.rsv ≠ .isNaN ∧ bench.isValid .d0 = true ∧ bench.argValid = true ∧ 159 < 160 := by
  decide

theorem witness_ComposingIsNanIsIllegal : bench.faultLatched = false := by decide

/-- Lengths 8 and 0, with the product above and below 2^128. -/
theorem witness_MulsClosedForm :
    Ready (.muls .d0 .d1 2) bench ∧ Ready (.muls .d0 .d3 2) bench ∧
    2 ^ 128 ≤ (bench.dec .d1).mag * 2 ∧ (bench.dec .d3).mag * 2 < 2 ^ 128 := by
  refine ⟨?_, ?_, ?_, ?_⟩ <;> first | decide +kernel | exact ⟨by decide, by decide, by decide +kernel, by decide +kernel⟩

theorem witness_AddsClosedForm :
    Ready (.adds .d0 .d1 1) bench ∧ 2 ^ 128 ≤ (bench.dec .d1).mag + 1 ∧
    Ready (.adds .d0 .d1 0) bench ∧ (bench.dec .d1).mag + 0 < 2 ^ 128 := by
  refine ⟨?_, ?_, ?_, ?_⟩ <;> first | decide +kernel | exact ⟨by decide, by decide, by decide +kernel, by decide +kernel⟩

theorem witness_DivsClosedForm : Ready (.divs .d0 .d1 0xFFFF) bench ∧ Ready (.divs .d0 .d0 0) bench ∧ (0xFFFF : Word) ≠ 0 := by
  refine ⟨?_, ?_, ?_⟩ <;> first | decide | exact ⟨by decide, by decide, by decide +kernel, by decide +kernel⟩

/-- The step from exponent -2 to each end of the range and one beyond each. -/
theorem witness_AdjeStepsWithinTheRange :
    bench.faultLatched = false ∧ bench.isValid .d0 = true ∧
    (bench.dec .d0).expInt + (129 : Word).toInt = 127 ∧ (bench.dec .d0).expInt + (130 : Word).toInt = 128 ∧
    (bench.dec .d0).expInt + (0xFF82 : Word).toInt = -128 ∧ (bench.dec .d0).expInt + (0xFF81 : Word).toInt = -129 := by
  decide +kernel

/-- D0 of length 3 with a nonzero top word and D1 of length 8: a product and a sum that fit, and some that do not. -/
theorem witness_ScalarPrimitivesObeyIntegerLaws :
    bench.faultLatched = false ∧ bench.isValid .d0 = true ∧ (bench.dec .d0).len.toNat ≤ 8 ∧
    (bench.dec .d0).mag * (7 : Word).toNat < 2 ^ 128 ∧ (bench.dec .d0).mag + (7 : Word).toNat < 2 ^ 128 ∧ (7 : Word).toNat ≠ 0 ∧
    bench.isValid .d1 = true ∧ (bench.dec .d1).len.toNat ≤ 8 ∧
    2 ^ 128 ≤ (bench.dec .d1).mag * (2 : Word).toNat ∧ 2 ^ 128 ≤ (bench.dec .d1).mag + (1 : Word).toNat := by
  decide +kernel

/-- The success premises of R457's round trip, on a value of length 3 that one word holds. -/
theorem witness_ScalarPrimitivesRoundTrip :
    (issued 0x10400007 (withD0 (img 0x00003000 0x00000005 0 0 0))).map (fun t => t.status) = some 0 ∧
    ((withD0 (img 0x00003000 0x00000005 0 0 0)).dec .d0).len.toNat ≠
      nwords ((withD0 (img 0x00003000 0x00000005 0 0 0)).dec .d0).mag := by decide +kernel

theorem witness_DivisionByTenEndsIn39Steps :
    bench.faultLatched = false ∧ bench.isValid .d1 = true ∧ (bench.dec .d1).len.toNat ≤ 8 := by decide +kernel

theorem witness_MulsAndAdjeScaleTheNumber :
    bench.faultLatched = false ∧ bench.isValid .d0 = true ∧ (bench.dec .d0).len.toNat ≤ 8 ∧
    (issued 0x10400007 bench).map (fun t => t.status) = some 0 ∧
    (issued 0x13400007 bench).map (fun t => t.status) = some 0 := by decide +kernel

theorem witness_CompactReducesTheLength :
    Ready (.compact .d2 .d0) bench ∧ Ready (.compact .d2 .d3) bench ∧
    ((bench.dec .d3).len = 0 ∧ (bench.dec .d3).neg = true) ∧ (bench.dec .d0).mag ≠ 0 ∧
    Ready (.compact .d0 .d0) (withD0 0) ∧ ((withD0 0).dec .d0).mag = 0 ∧ ((withD0 0).dec .d0).neg = false := by
  refine ⟨?_, ?_, ?_, ?_, ?_, ?_⟩ <;>
    first | decide +kernel | exact ⟨by decide, by decide, by decide +kernel, by decide +kernel⟩

theorem witness_CompactIsIdempotent : Ready (.compact .d2 .d0) bench :=
  ⟨by decide, by decide, by decide +kernel, by decide +kernel⟩

theorem witness_CompactKeepsTheNumber : Ready (.compact .d2 .d1) bench :=
  ⟨by decide, by decide, by decide +kernel, by decide +kernel⟩

theorem witness_EqualityIsOfNormalizedTriples :
    (bench.dec .d1).len.toNat ≤ 8 ∧ (bench.dec .d0).len.toNat ≤ 8 ∧ (bench.dec .d1).isNaN = false ∧
    (bench.dec .d0).isNaN = false := by decide +kernel

theorem witness_WhichResultsAreTheNanPattern :
    bench.faultLatched = false ∧ bench.isValid .d3 = true ∧ (bench.dec .d3).len.toNat ≤ 8 ∧ bench.argValid = true ∧
    (bench.dec .d3).isNaN = true ∧ (issued 0x10F00000 bench).map (fun t => t.status) = some 0 ∧
    (issued 0x11F00000 bench).map (fun t => t.status) = some 0 ∧
    (issued 0x12F00001 bench).map (fun t => t.status) = some 0 := by decide +kernel

/-- Two records that agree but for a word beyond the length. -/
theorem witness_WordsBeyondTheLengthTakeNoPart :
    let a := decodeImage (img 0x00001000 0x00000002 0 0x12340000 0)
    let b := decodeImage (img 0x00001000 0x00000002 0 0 0)
    a.len.toNat ≤ 8 ∧ a.exp = b.exp ∧ a.len = b.len ∧ a.neg = b.neg ∧ a.cmp = b.cmp ∧ a.rsv = b.rsv ∧
      a.active = b.active ∧ a ≠ b := by decide +kernel

theorem witness_ReservedFieldIsCarried :
    (∃ t, exec (.muls .d0 .d0 7) bench = .next t ∧ t.status = 0) ∧ Ready (.muls .d0 .d0 7) bench ∧
    Field.exp ≠ .rsv ∧ Field.exp ≠ .ctrl ∧ DReg.d1 ≠ DReg.d0 :=
  ⟨⟨_, rfl, by decide +kernel⟩, ⟨by decide, by decide, by decide +kernel, by decide +kernel⟩, by decide⟩

theorem witness_CompactFlagFollowsItsWriters :
    (∃ t, exec (.compact .d2 .d0) bench = .next t ∧ t.status = 0) ∧ Ready (.compact .d2 .d0) bench ∧
    (bench.dec .d0).isNaN = false ∧ Field.len ≠ .cmp ∧ Field.len ≠ .ctrl :=
  ⟨⟨_, rfl, by decide +kernel⟩, ⟨by decide, by decide, by decide +kernel, by decide +kernel⟩, by decide +kernel⟩

theorem witness_CommandsOnlySetValidBits :
    ∃ t, exec (.zero .d1) State.reset = .next t ∧ t.isValid .d1 = true ∧ t.isValid .d0 = false :=
  ⟨_, rfl, by decide +kernel⟩

theorem witness_SideRegistersHaveTheirOwnWriters :
    ∃ t, exec (.divs .d0 .d0 10) bench = .next t ∧ t.rem ≠ bench.rem ∧ t.status = 0 := ⟨_, rfl, by decide +kernel⟩

theorem witness_EveryEventIsPrecise :
    (∃ t, exec (.divs .d0 .d2 0) bench = .next t ∧ t.fault = 3) ∧ (∃ t, exec (.divs .d0 .d0 0) bench = .next t ∧ t.status = 4) ∧
    ∃ t, exec (.zero .d0) faulted = .next t ∧ faulted.faultLatched = true :=
  ⟨⟨_, rfl, by decide +kernel⟩, ⟨_, rfl, by decide +kernel⟩, ⟨_, rfl, by decide +kernel⟩⟩

theorem witness_CalculationErrorsByCommand :
    Ready (.divs .d0 .d0 0) bench ∧ Ready (.muls .d0 .d1 2) bench ∧ Ready (.adje .d0 .d0 130) bench := by
  refine ⟨?_, ?_, ?_⟩ <;> exact ⟨by decide, by decide, by decide +kernel, by decide +kernel⟩

theorem witness_CalculationErrorWritesOnlyStatus :
    Ready (.divs .d0 .d0 0) bench ∧ ∃ t, exec (.divs .d0 .d0 0) bench = .next t ∧ t.status ≠ 0 :=
  ⟨⟨by decide, by decide, by decide +kernel, by decide +kernel⟩, ⟨_, rfl, by decide +kernel⟩⟩

theorem witness_GateHoldsUntilReset :
    faulted.faultLatched = true ∧ (HostOp.write 4 (.magnitude 1)) ≠ .reset ∧
    ∃ t, performOp ⟨0, .write 4 (.magnitude 1)⟩ faulted = .next t := ⟨by decide, by decide, ⟨_, rfl⟩⟩

theorem witness_FaultRecordsCauseAndWord :
    ∃ t, performOp ⟨0, .issue 0x10010005⟩ bench = .next t ∧ t.faultcmd ≠ bench.faultcmd := ⟨_, rfl, by decide +kernel⟩

theorem witness_UninitializedOperandsAreRefused :
    (State.reset.faultLatched = false ∧ State.reset.isValid .d3 = false ∧ State.reset.argValid = false ∧
      Field.len ≠ .isNaN) ∧
    (bench.faultLatched = false ∧ bench.isValid .d1 = true ∧ bench.argValid = true ∧ (bench.dec .d1).len.toNat ≤ 8) ∧
    (withD0 0).faultLatched = false ∧ (withD0 0).isValid .d0 = true ∧ (withD0 0).argValid = false := by
  decide +kernel

/-- The lengths 9 and 12 are refused, and 8 is not. -/
theorem witness_LengthAboveEightIsRefused :
    bench.faultLatched = false ∧ bench.isValid .d2 = true ∧ 8 < (bench.dec .d2).len.toNat ∧
    8 < ((withD0 (img 0x00009000 0 0 0 0)).dec .d0).len.toNat ∧ ¬ 8 < (bench.dec .d1).len.toNat ∧
    bench.argValid = true ∧ Field.exp ≠ .isNaN := by decide +kernel

theorem witness_FirstEventInOrderIsReported :
    faulted.faultLatched = true ∧ bench.faultLatched = false ∧ (∀ i, decode 0x10010005 ≠ .ok i) ∧
    (decode 0x05410000 = .ok (.sfld .d1 .len) ∧ Source.arg ∈ operandsOf (.sfld .d1 .len) ∧
      State.reset.sourceValid .arg = false) ∧
    (decode 0x12200000 = .ok (.divs .d0 .d2 0) ∧ (∀ x ∈ operandsOf (.divs .d0 .d2 0), bench.sourceValid x = true) ∧
      8 < (bench.dec .d2).len.toNat ∧ (bench.dec .d2).len = 12) ∧
    Ready (.divs .d0 .d1 0) bench :=
  ⟨by decide, by decide, no_command (e := .mustBeZero 0x10010005) (by decide), by decide, by decide +kernel,
    ⟨by decide, by decide, by decide +kernel, by decide +kernel⟩⟩

theorem witness_FirstFaultIsKept :
    faulted.faultLatched = true ∧
    (∀ p ∈ [(⟨0, .issue 0x01000000⟩ : PortOp), ⟨1, .read 8⟩, ⟨0, .write 4 (.magnitude 9)⟩], p.op ≠ .reset) ∧
    ∃ t, performAll [⟨0, .issue 0x01000000⟩, ⟨1, .read 8⟩, ⟨0, .write 4 (.magnitude 9)⟩] faulted = .next t :=
  ⟨by decide, by decide, ⟨_, rfl⟩⟩

theorem witness_HostReadAnswersTheRegister :
    3 = DReg.d3.code.toNat ∧ bench.isValid .d3 = true ∧ State.reset.isValid .d3 = false ∧ bench.remWritten = false := by decide

theorem witness_HostWriteWritesTheRegister : 3 = DReg.d3.code.toNat ∧ 0 = DReg.d0.code.toNat ∧ (5 ≤ 5 ∧ 9 ≤ 9) := by decide

theorem witness_OperationsOffTheInterfaceAreRefused : 9 < 10 ∧ 0 = DReg.d0.code.toNat ∧ 3 = DReg.d3.code.toNat := by decide

theorem witness_WriteTwiceIsOnceAndIssueTwiceIsNot :
    (∃ t, performOp ⟨0, .write 0 (.image 1)⟩ bench = .next t) ∧ bench.faultLatched = false ∧
    bench.isValid .d0 = true ∧ (bench.dec .d0).len.toNat ≤ 8 ∧ (bench.dec .d0).mag * 100 < 2 ^ 128 :=
  ⟨⟨_, rfl⟩, by decide +kernel⟩

theorem witness_HostResetClearsTheControlState :
    (Instr.mov .d0 .d1).wf = true ∧ operandsOf (.mov .d0 .d1) ≠ [] := by decide

theorem witness_BootedBlockNeverReadsUnwritten :
    bench.booted ∧ bench.fault ≠ 2 ∧ (∀ p ∈ [(⟨0, .issue 0x1000000A⟩ : PortOp)], p.op ≠ .reset) ∧
    ∃ t, performAll [⟨0, .issue 0x1000000A⟩] bench = .next t :=
  ⟨⟨rfl, rfl⟩, by decide, by decide, ⟨_, rfl⟩⟩

theorem witness_InvariantKeptByEveryStep :
    (State.reset.withFetchWord 32 0x01000000).Inv ∧ ∃ t, step (State.reset.withFetchWord 32 0x01000000) = .next t := by
  refine ⟨⟨⟨.noError, by decide, rfl⟩, .inl ⟨rfl, rfl⟩, ?_⟩, ⟨_, rfl⟩⟩
  intro p hp
  obtain rfl : p = ⟨0, .issue 0x01000000⟩ := by simpa [State.withFetchWord, State.issueNext, State.reset] using hp
  exact Nat.succ_pos _

/-- One host, with two operations in their order. -/
theorem witness_PortRunsOneTotalOrder :
    State.reset.Inv ∧ [[HostOp.issue 0x01000000, HostOp.read 0]].length ≤ Config.hostCount ∧
    interleaves [[HostOp.issue 0x01000000, HostOp.read 0]] [⟨0, .issue 0x01000000⟩, ⟨0, .read 0⟩] := by
  refine ⟨⟨⟨.noError, by decide, rfl⟩, .inl ⟨rfl, rfl⟩, fun p hp => by cases hp⟩, Nat.le_add_left .., by decide, ?_⟩
  intro h
  cases h with
  | zero => rfl
  | succ n => rfl

end Sys2Proof.Tests
end

section
/-! SUPPORT. The packed image of a record as a number, and the record read back from its image (spec/30_encoding.md rules
R301 to R304). -/

namespace Sys2Proof.Machine

/-- A bit field of a number is a bit field of a longer one. -/
theorem field_within_field (x lo k len : Nat) :
    x / 2 ^ (lo + k) % 2 ^ len = x / 2 ^ lo % 2 ^ (k + len) / 2 ^ k := by
  rw [pow_add, pow_add, ← Nat.div_div_eq_div_mul, Nat.mod_mul_right_div_self]

/-- The control byte as a number (R302). -/
theorem toNat_ctrlByte (d : Dec) :
    (ctrlByte d).toNat = d.len.toNat * 2 ^ 4 + d.neg.toNat * 2 ^ 3 + d.cmp.toNat * 2 ^ 2 + d.rsv.toNat / 2 ^ 16 := by
  have hr := d.rsv.isLt
  simp only [ctrlByte, toNat_concat, toNat_field, BitVec.toNat_ofBool]
  omega

/-- The image of a record as a number: its fields at their places (R301, R304). -/
theorem toNat_encodeImage (d : Dec) :
    (encodeImage d).toNat =
      d.w[7].toNat * 2 ^ 144 + d.w[6].toNat * 2 ^ 128 + d.w[5].toNat * 2 ^ 112 + d.w[4].toNat * 2 ^ 96 +
      d.w[3].toNat * 2 ^ 80 + d.w[2].toNat * 2 ^ 64 + d.w[1].toNat * 2 ^ 48 + d.w[0].toNat * 2 ^ 32 +
      d.rsv.toNat % 2 ^ 16 * 2 ^ 16 + (ctrlByte d).toNat * 2 ^ 8 + d.exp.toNat := by
  simp only [encodeImage, toNat_concat, toNat_field]
  omega

/-- A mantissa word is read back from the image (R303, R304). -/
theorem imageWord_encodeImage (d : Dec) (i : Nat) (hi : i < 8) : imageWord (encodeImage d) i = d.w[i] := by
  have hc := (ctrlByte d).isLt
  have he := d.exp.isLt
  apply BitVec.eq_of_toNat_eq
  rw [imageWord, toNat_field, toNat_encodeImage]
  interval_cases i <;> omega

/-- Byte 1 of the image is the control byte (R302, R304). -/
theorem controlByte_encodeImage (d : Dec) : (encodeImage d).toNat / 2 ^ 8 % 2 ^ 8 = (ctrlByte d).toNat := by
  have hc := (ctrlByte d).isLt
  have he := d.exp.isLt
  rw [toNat_encodeImage]
  omega

/-- Bytes 2 and 3 of the image are the low part of the reserved field (R301, R304). -/
theorem reservedLow_encodeImage (d : Dec) : (encodeImage d).toNat / 2 ^ 16 % 2 ^ 16 = d.rsv.toNat % 2 ^ 16 := by
  have hc := (ctrlByte d).isLt
  have he := d.exp.isLt
  rw [toNat_encodeImage]
  omega

/-- Decoding the image of a record gives the record back (R304). -/
@[simp] theorem decodeImage_encodeImage (d : Dec) : decodeImage (encodeImage d) = d := by
  have hr := d.rsv.isLt
  have hn := d.neg.toNat_lt
  have hm := d.cmp.toNat_lt
  have hctrl := controlByte_encodeImage d
  have hlow := reservedLow_encodeImage d
  rw [toNat_ctrlByte] at hctrl
  have hexp : (decodeImage (encodeImage d)).exp = d.exp := by
    apply BitVec.eq_of_toNat_eq
    simp only [decodeImage, toNat_field, toNat_encodeImage]
    omega
  have hlen : (decodeImage (encodeImage d)).len = d.len := by
    apply BitVec.eq_of_toNat_eq
    simp only [decodeImage, toNat_field]
    rw [field_within_field _ 8 4 4, hctrl]
    omega
  have hneg : (decodeImage (encodeImage d)).neg = d.neg := by
    simp only [decodeImage, getLsbD_iff_field]
    rw [Bool.eq_iff_iff, decide_eq_true_iff, ← Bool.toNat_eq_one]
    omega
  have hcmp : (decodeImage (encodeImage d)).cmp = d.cmp := by
    simp only [decodeImage, getLsbD_iff_field]
    rw [Bool.eq_iff_iff, decide_eq_true_iff, ← Bool.toNat_eq_one]
    omega
  have hrsv : (decodeImage (encodeImage d)).rsv = d.rsv := by
    apply BitVec.eq_of_toNat_eq
    simp only [decodeImage, toNat_concat, toNat_field]
    omega
  have hw : (decodeImage (encodeImage d)).w = d.w := by
    apply Vector.ext
    intro i hi
    rw [← imageWord_encodeImage d i hi]
    interval_cases i <;> rfl
  exact (Dec.mk.injEq ..).mpr ⟨hexp, hlen, hneg, hcmp, hrsv, hw⟩

end Sys2Proof.Machine
end

section
/-! SUPPORT. The least word count of an integer and the words written back by withMag (spec/00_scope.md rules R10, R13). -/

namespace Sys2Proof.Machine

theorem wordBase_pow (n : Nat) : wordBase ^ n = 2 ^ (16 * n) := (pow_mul 2 16 n).symm

/-- nwords is the least number of words that holds an integer below 2^128 (R10). -/
theorem nwords_le_iff {v : Nat} (hv : v < 2 ^ 128) (L : Nat) : nwords v ≤ L ↔ v < 2 ^ (16 * L) := by
  rw [nwords, ← wordBase_pow]
  exact digitCount_le_iff mantWords v L (by rwa [wordBase_pow])

/-- Settles O14: both halves are R10's bound, at L = nwords v and at every L. -/
theorem wordCountIsLeast : Obligations.WordCountIsLeast := by
  refine ⟨fun v hv => ⟨?_, fun L hL => ?_⟩, by decide⟩
  · exact (nwords_le_iff hv (nwords v)).mp le_rfl
  · exact (nwords_le_iff hv L).mpr hL

/-- Word i of an integer's n lowest words; beyond them, the default (R13). -/
theorem getD_wordsOf (n v i : Nat) (x : Word) :
    (wordsOf n v).getD i x = if i < n then BitVec.ofNat 16 (v / 2 ^ (16 * i)) else x := by
  induction n generalizing v i with
  | zero => rfl
  | succ n ih =>
    cases i with
    | zero => simp [wordsOf]
    | succ i =>
      have hdiv : v / wordBase / 2 ^ (16 * i) = v / 2 ^ (16 * (i + 1)) := by
        rw [Nat.div_div_eq_div_mul, ← wordBase_pow, ← wordBase_pow, pow_succ']
      simp only [wordsOf, List.getD_cons_succ, ih, hdiv, Nat.add_lt_add_iff_right]

@[simp] theorem Dec.withMag_exp (d : Dec) (v n L : Nat) : (d.withMag v n L).exp = d.exp := rfl
@[simp] theorem Dec.withMag_neg (d : Dec) (v n L : Nat) : (d.withMag v n L).neg = d.neg := rfl
@[simp] theorem Dec.withMag_cmp (d : Dec) (v n L : Nat) : (d.withMag v n L).cmp = d.cmp := rfl
@[simp] theorem Dec.withMag_rsv (d : Dec) (v n L : Nat) : (d.withMag v n L).rsv = d.rsv := rfl

theorem Dec.withMag_len (d : Dec) (v n : Nat) {L : Nat} (hL : L ≤ 15) : (d.withMag v n L).len.toNat = L := by
  simp only [Dec.withMag, BitVec.toNat_ofNat]
  omega

/-- The words of withMag: below n the integer's, from n on the old ones (R13). -/
theorem Dec.withMag_word (d : Dec) (v n L : Nat) (i : Fin 8) :
    (d.withMag v n L).w[i] = if i.val < n then BitVec.ofNat 16 (v / 2 ^ (16 * i.val)) else d.w[i] := by
  simpa [Dec.withMag, Dec.withWords] using getD_wordsOf n v i d.w[i]

/-- Settles O15: the words by the law of the integer's words, the length by its width, the other fields untouched.
The bounds on v and n are not used: withMag takes the integer's low words whatever lies above them. -/
theorem withMagReplacesLowWords : Obligations.WithMagReplacesLowWords := by
  intro d v n L _ _ hL
  refine ⟨fun i => ?_, d.withMag_len v n hL, d.withMag_exp v n L, d.withMag_neg v n L, d.withMag_cmp v n L,
    d.withMag_rsv v n L⟩
  rw [d.withMag_word v n L i]
  split
  · exact BitVec.toNat_ofNat ..
  · rfl

end Sys2Proof.Machine
end

section
/-! SUPPORT. What a register holds after a command, what the rules of MULS, ADDS and ADJE give as integers, and the number a
record stands for when its magnitude and exponent change. -/

namespace Sys2Proof.Machine

/-! ## A register read as a record after a write -/

@[simp] theorem State.dec_writeImage_same (s : State) (r : DReg) (P : Image) :
    (s.writeImage r P).dec r = decodeImage P := by
  simp [State.dec]

@[simp] theorem State.dec_setCode (s : State) (e : CalcError) (r : DReg) : (s.setCode e).dec r = s.dec r := rfl

@[simp] theorem State.dec_succeed_same (s : State) (r : DReg) (x : Dec) : (s.succeed r x).dec r = x := by
  simp [State.succeed, State.writeDec]

theorem CalcError.status_eq_zero_iff (e : CalcError) : e.status = 0 ↔ e = .noError := by
  cases e <;> decide

/-- A command whose rule reports each failure as an error, and that ends with STATUS 0, wrote the record its rule gives. -/
theorem dec_finish_of_status_zero {s : State} {rd : DReg} {o : Except CalcError Dec}
    (herr : o ≠ .error .noError) (h : (s.finish rd o).status = 0) : ∃ x, o = .ok x ∧ (s.finish rd o).dec rd = x := by
  rcases finish_cases s rd o with ⟨x, ho, hfin⟩ | ⟨e, ho, hfin⟩
  · exact ⟨x, ho, by rw [hfin, State.dec_succeed_same]⟩
  · rw [hfin] at h
    rw [ho, (CalcError.status_eq_zero_iff e).mp h] at herr
    exact absurd rfl herr

/-! ## The rules of MULS, ADDS and ADJE -/

@[simp] theorem Dec.withResult_exp (d : Dec) (p : List Word) (n : Nat) : (d.withResult p n).exp = d.exp := rfl
@[simp] theorem Dec.withResult_neg (d : Dec) (p : List Word) (n : Nat) : (d.withResult p n).neg = d.neg := rfl
@[simp] theorem Dec.withResult_rsv (d : Dec) (p : List Word) (n : Nat) : (d.withResult p n).rsv = d.rsv := rfl
@[simp] theorem Dec.withResult_cmp (d : Dec) (p : List Word) (n : Nat) : (d.withResult p n).cmp = false := rfl

theorem Dec.withResult_len (d : Dec) (p : List Word) {n : Nat} (hn : n ≤ 8) : (d.withResult p n).len.toNat = n := by
  simp only [Dec.withResult, BitVec.toNat_ofNat]
  omega

/-- The end of MULS and of ADDS: no carry, a carry that does not fit, or a carry into one more word (R451, R453). -/
theorem withCarry_cases (d : Dec) (p : List Word) (c : Word) :
    (c = 0 ∧ d.withCarry p c = .ok (d.withResult p d.len.toNat)) ∨
    (c ≠ 0 ∧ d.len.toNat = 8 ∧ d.withCarry p c = .error .overflow) ∨
    (c ≠ 0 ∧ d.len.toNat ≠ 8 ∧ d.withCarry p c = .ok (d.withResult (p ++ [c]) (d.len.toNat + 1))) := by
  by_cases hc : c = 0
  · exact .inl ⟨hc, if_pos hc⟩
  · by_cases hn : d.len.toNat = 8
    · exact .inr (.inl ⟨hc, hn, (if_neg hc).trans (if_pos hn)⟩)
    · exact .inr (.inr ⟨hc, hn, (if_neg hc).trans (if_neg hn)⟩)

theorem withCarry_ne_noError (d : Dec) (p : List Word) (c : Word) : d.withCarry p c ≠ .error .noError := by
  rcases withCarry_cases d p c with ⟨-, h⟩ | ⟨-, -, h⟩ | ⟨-, -, h⟩ <;> simp [h]

/-- The record of MULS and of ADDS holds the words and the carry as one integer; a carry makes it one word longer; the
exponent and the sign stay (R451, R453). -/
theorem withCarry_ok {d x : Dec} {p : List Word} {c : Word} (hp : p.length = d.len.toNat) (h8 : d.len.toNat ≤ 8)
    (h : d.withCarry p c = .ok x) :
    x.mag = wordsValue p + wordBase ^ p.length * c.toNat ∧
      x.len.toNat = d.len.toNat + (if c = 0 then 0 else 1) ∧ x.len.toNat ≤ 8 ∧ x.exp = d.exp ∧ x.neg = d.neg := by
  rcases withCarry_cases d p c with ⟨hc, hx⟩ | ⟨-, -, hx⟩ | ⟨hc, hn, hx⟩ <;> rw [hx] at h <;> cases h
  case inl =>
    have hlen := Dec.withResult_len d p h8
    refine ⟨?_, by rw [hlen, if_pos hc, add_zero], by omega, Dec.withResult_exp .., Dec.withResult_neg ..⟩
    rw [mag_withResult d p _ (by omega) (by omega), ← hp, List.take_length, hc]
    simp
  case inr.inr =>
    have hlen := Dec.withResult_len d (p ++ [c]) (n := d.len.toNat + 1) (by omega)
    refine ⟨?_, by rw [hlen, if_neg hc], by omega, Dec.withResult_exp .., Dec.withResult_neg ..⟩
    rw [mag_withResult d _ _ (by simp; omega) (by simp; omega), List.take_of_length_le (by simp; omega),
      wordsValue_append]
    simp [wordsValue]

theorem mulScalar_eq_withCarry (d : Dec) (v : Word) :
    d.mulScalar v = d.withCarry (mulChain v d.active 0).1 (mulChain v d.active 0).2 := rfl

theorem mulScalar_ne_noError (d : Dec) (v : Word) : d.mulScalar v ≠ .error .noError := by
  rw [mulScalar_eq_withCarry]
  exact withCarry_ne_noError _ _ _

/-- Two records of one sign, empty together, are NaN together (R11). -/
theorem isNaN_congr {x d : Dec} (hlen : x.len.toNat = 0 ↔ d.len.toNat = 0) (hneg : x.neg = d.neg) :
    x.isNaN = d.isNaN := by
  have hz (y : Dec) : y.len = 0 ↔ y.len.toNat = 0 := by rw [← BitVec.toNat_inj]; rfl
  simp only [Dec.isNaN, hz, hlen, hneg]

/-- A product that fits has the integer product as its magnitude; the exponent, the sign and NaN stay (R451, R452). -/
theorem mulScalar_ok {d x : Dec} {v : Word} (h8 : d.len.toNat ≤ 8) (h : d.mulScalar v = .ok x) :
    x.mag = d.mag * v.toNat ∧ x.len.toNat ≤ 8 ∧ x.exp = d.exp ∧ x.neg = d.neg ∧ x.isNaN = d.isNaN := by
  rw [mulScalar_eq_withCarry] at h
  have hact := length_active d h8
  have hlen : (mulChain v d.active 0).1.length = d.active.length := length_mulChain ..
  obtain ⟨hmag, hxlen, hx8, hexp, hneg⟩ := withCarry_ok (hlen.trans hact) h8 h
  have hprod : x.mag = d.mag * v.toNat := by
    rw [hmag, hlen, value_mulChain]
    rfl
  have hempty : x.len.toNat = 0 ↔ d.len.toNat = 0 := by
    constructor
    · omega
    · intro h0
      have hnil : d.active = [] := List.eq_nil_of_length_eq_zero (hact.trans h0)
      rw [hxlen, h0, hnil]
      rfl
  exact ⟨hprod, hx8, hexp, hneg, isNaN_congr hempty hneg⟩

/-- ADJE's rule: beyond the top, beyond the bottom, or the record with the new exponent (R458). -/
theorem stepExp_cases (d : Dec) (k : Word) :
    (127 < d.expInt + k.toInt ∧ d.stepExp k = .error .overflow) ∨
    (d.expInt + k.toInt < -128 ∧ d.stepExp k = .error .underflow) ∨
    (-128 ≤ d.expInt + k.toInt ∧ d.expInt + k.toInt ≤ 127 ∧
      d.stepExp k = .ok { d with exp := BitVec.ofInt 8 (d.expInt + k.toInt) }) := by
  unfold Dec.stepExp
  by_cases hover : d.expInt + k.toInt > 127
  · exact .inl ⟨hover, if_pos hover⟩
  · by_cases hunder : d.expInt + k.toInt < -128
    · exact .inr (.inl ⟨hunder, (if_neg hover).trans (if_pos hunder)⟩)
    · exact .inr (.inr ⟨by omega, by omega, (if_neg hover).trans (if_neg hunder)⟩)

theorem stepExp_ne_noError (d : Dec) (k : Word) : d.stepExp k ≠ .error .noError := by
  rcases stepExp_cases d k with ⟨-, h⟩ | ⟨-, h⟩ | ⟨-, -, h⟩ <;> simp [h]

/-- An exponent step that stays in the range gives the exact sum, and changes nothing else (R458). -/
theorem stepExp_ok {d x : Dec} {k : Word} (h : d.stepExp k = .ok x) :
    x.expInt = d.expInt + k.toInt ∧ x = { d with exp := x.exp } := by
  rcases stepExp_cases d k with ⟨-, hx⟩ | ⟨-, hx⟩ | ⟨hlow, hhigh, hx⟩ <;> rw [hx] at h <;> cases h
  refine ⟨?_, rfl⟩
  simp only [Dec.expInt, BitVec.toInt_ofInt] at hlow hhigh ⊢
  exact Int.bmod_eq_of_le (by omega) (by omega)

/-! ## The number a record stands for -/

/-- R12 under scaling: a magnitude multiplied by m and an exponent raised by k multiply the number by m * 10^k; no number
stays no number. -/
theorem value_of_scaled {d x : Dec} {m : Nat} {k : Int} (hnan : x.isNaN = d.isNaN) (hx8 : x.len.toNat ≤ 8)
    (hd8 : d.len.toNat ≤ 8) (hneg : x.neg = d.neg) (hmag : x.mag = d.mag * m) (hexp : x.expInt = d.expInt + k) :
    x.value = d.value.map (· * ((m : ℚ) * (10 : ℚ) ^ k)) := by
  cases hd : d.isNaN with
  | true => simp [Dec.value, hnan, hd]
  | false =>
    have hpow : (10 : ℚ) ^ (d.expInt + k) = 10 ^ d.expInt * 10 ^ k := zpow_add₀ (by norm_num) ..
    simp only [Dec.value, hnan, hd, hneg, hmag, hexp, hpow, not_lt.mpr hx8, not_lt.mpr hd8, Bool.false_eq_true, or_self,
      if_false, Option.map_some, Nat.cast_mul]
    congr 1
    ring

/-- The number after a MULS that fits (R12, R451). -/
theorem value_mulScalar {d x : Dec} {v : Word} (h8 : d.len.toNat ≤ 8) (h : d.mulScalar v = .ok x) :
    x.value = d.value.map (· * (v.toNat : ℚ)) := by
  obtain ⟨hmag, hx8, hexp, hneg, hnan⟩ := mulScalar_ok h8 h
  have hstay : x.expInt = d.expInt + 0 := by rw [Dec.expInt, Dec.expInt, hexp, add_zero]
  simpa using value_of_scaled hnan hx8 h8 hneg hmag hstay

/-- The number after an ADJE within the range (R12, R458). -/
theorem value_stepExp {d x : Dec} {k : Word} (h8 : d.len.toNat ≤ 8) (h : d.stepExp k = .ok x) :
    x.value = d.value.map (· * (10 : ℚ) ^ k.toInt) := by
  obtain ⟨hexp, hx⟩ := stepExp_ok h
  have hlen : x.len = d.len := by rw [hx]
  have hneg : x.neg = d.neg := by rw [hx]
  have hmag : x.mag = d.mag * 1 := by rw [hx, mul_one]; rfl
  have hnan : x.isNaN = d.isNaN := isNaN_congr (by rw [hlen]) hneg
  simpa using value_of_scaled hnan (hlen ▸ h8) h8 hneg hmag hexp

/-- Settles O29: the rule of each command gives a record of the scaled number, and STATUS 0 says that the rule gave one. -/
theorem mulsAndAdjeScaleTheNumber : Obligations.MulsAndAdjeScaleTheNumber := by
  intro rd rs imm s hfault hvalid hlen
  have hoperand : ∀ x ∈ [Source.d rs], s.sourceValid x = true := by simpa [State.sourceValid] using hvalid
  constructor
  · have hready : Ready (.muls rd rs imm) s := ⟨hfault, rfl, hoperand, by simpa [countedOperand] using hlen⟩
    refine ⟨_, exec_ready hready, fun hstatus => ?_⟩
    obtain ⟨x, hx, hdec⟩ := dec_finish_of_status_zero (mulScalar_ne_noError _ _) hstatus
    exact (congrArg Dec.value hdec).trans (value_mulScalar hlen hx)
  · have hready : Ready (.adje rd rs imm) s := ⟨hfault, rfl, hoperand, by simp [countedOperand]⟩
    refine ⟨_, exec_ready hready, fun hstatus => ?_⟩
    obtain ⟨x, hx, hdec⟩ := dec_finish_of_status_zero (stepExp_ne_noError _ _) hstatus
    exact (congrArg Dec.value hdec).trans (value_stepExp hlen hx)

end Sys2Proof.Machine
end

section
/-! SUPPORT. A word that decodes is the word of a well-formed command (spec/30_encoding.md rules R305 to R311). -/

namespace Sys2Proof

/-- A mapped outcome is a value exactly when the outcome was one. -/
theorem except_map_ok_iff {ε α β : Type} (f : α → β) (o : Except ε α) (y : β) :
    o.map f = .ok y ↔ ∃ x, o = .ok x ∧ f x = y := by
  cases o <;> simp [Except.map]

/-- A word is put together by the values of its fields (R305). -/
theorem packCmd_eq_of_fields {w : Cmd} {op : BitVec 8} {rd rs : BitVec 2} {fs : BitVec 4} {imm : Word}
    (hop : fieldOp w = op) (hrd : fieldRd w = rd) (hrs : fieldRs w = rs) (hfs : fieldFs w = fs) (himm : fieldImm w = imm) :
    packCmd op rd rs fs imm = w := by
  rw [← hop, ← hrd, ← hrs, ← hfs, ← himm, packCmd_fields]

/-- A word that decodes is the word of its command, and that command is well formed: the must-be-zero fields of each opcode
and its selector leave nothing else (R309, R310, R311). -/
theorem encode_and_wf_of_decode {w : Cmd} {i : Instr} (h : decode w = .ok i) : encode i = w ∧ i.wf = true := by
  obtain ⟨op, hop, hdec⟩ := (decode_ok_iff w i).mp h
  cases op <;>
    simp only [decodeOp, requireZero_ok_iff, except_map_ok_iff, selectReadable_ok_iff, selectWritable_ok_iff,
      Except.ok.injEq, decide_eq_true_eq] at hdec
  case zero =>
    obtain ⟨⟨hrs, hfs, himm⟩, rfl⟩ := hdec
    exact ⟨packCmd_eq_of_fields hop (DReg.code_ofCode _).symm hrs hfs himm, rfl⟩
  case cvtu64 =>
    obtain ⟨⟨hrs, hfs, hhigh⟩, rfl⟩ := hdec
    exact ⟨packCmd_eq_of_fields hop (DReg.code_ofCode _).symm hrs hfs (packImm_fields _ hhigh).symm, rfl⟩
  case xfld =>
    obtain ⟨⟨hrd, himm⟩, f, hf, rfl⟩ := hdec
    exact ⟨packCmd_eq_of_fields hop hrd (DReg.code_ofCode _).symm hf himm, rfl⟩
  case sfld =>
    obtain ⟨⟨hrs, himm⟩, f, ⟨hf, hw⟩, rfl⟩ := hdec
    exact ⟨packCmd_eq_of_fields hop (DReg.code_ofCode _).symm hrs hf himm, hw⟩
  case sfldi =>
    obtain ⟨hrs, f, ⟨hf, hw⟩, rfl⟩ := hdec
    exact ⟨packCmd_eq_of_fields hop (DReg.code_ofCode _).symm hrs hf rfl, hw⟩
  case mov | compact =>
    obtain ⟨⟨hfs, himm⟩, rfl⟩ := hdec
    exact ⟨packCmd_eq_of_fields hop (DReg.code_ofCode _).symm (DReg.code_ofCode _).symm hfs himm, rfl⟩
  case muls | adds | divs | adje =>
    obtain ⟨hfs, rfl⟩ := hdec
    exact ⟨packCmd_eq_of_fields hop (DReg.code_ofCode _).symm (DReg.code_ofCode _).symm hfs rfl, rfl⟩

end Sys2Proof
end

section
/-! SUPPORT. The standing promises of STATUS, FAULT, FAULTCMD and the port (spec/10_state.md section 5), kept by every
operation that a step can perform. -/

namespace Sys2Proof.Machine

/-! ## What the invariant needs of each state operation -/

/-- The invariant speaks of STATUS, FAULT, FAULTCMD and the port alone. -/
theorem State.Inv.congr {s t : State} (hs : s.Inv) (hstatus : t.status = s.status) (hfault : t.fault = s.fault)
    (hcmd : t.faultcmd = s.faultcmd) (hport : t.port = s.port) : t.Inv := by
  simpa only [State.Inv, State.statusLegal, State.faultLegal, State.hostsKnown, hstatus, hfault, hcmd, hport] using hs

/-- Recording a code that some command writes (R110, R603). -/
theorem State.Inv.setCode {s : State} (hs : s.Inv) {e : CalcError} (he : e ≠ .lossOfPrecision) : (s.setCode e).Inv := by
  obtain ⟨-, hfault, hhosts⟩ := hs
  exact ⟨⟨e, he, rfl⟩, hfault, hhosts⟩

/-- Taking a fault whose word accounts for its cause (R111, R605). -/
theorem State.Inv.raiseFault {s : State} (hs : s.Inv) {c : FaultCause} {w : Cmd} (hw : c.explainedBy w) :
    (s.raiseFault c w).Inv := by
  obtain ⟨hstatus, -, hhosts⟩ := hs
  exact ⟨hstatus, .inr ⟨c, rfl, hw⟩, hhosts⟩

theorem State.Inv.writeImage {s : State} (hs : s.Inv) (r : DReg) (P : Image) : (s.writeImage r P).Inv :=
  hs.congr rfl rfl rfl rfl

theorem State.Inv.hostReset {s : State} (hs : s.Inv) : s.hostReset.Inv := by
  obtain ⟨-, -, hhosts⟩ := hs
  exact ⟨⟨.noError, by decide, rfl⟩, .inl ⟨rfl, rfl⟩, hhosts⟩

/-- An operation taken off the port leaves the others, each with its host (R212). -/
theorem State.Inv.tail {s : State} {p : PortOp} {rest : List PortOp} (hs : s.Inv) (hp : s.port = p :: rest) :
    { s with port := rest }.Inv := by
  obtain ⟨hstatus, hfault, hhosts⟩ := hs
  exact ⟨hstatus, hfault, fun q hq => hhosts q (hp ▸ List.mem_cons_of_mem p hq)⟩

/-! ## The operations of a step -/

/-- The rule of a command records no code but 0, 2, 3 or 4 and takes no fault (R602, R603). -/
theorem commandRule_inv (i : Instr) {s : State} (hs : s.Inv) : (commandRule i s).Inv := by
  rcases commandRule_cases i s with ⟨e, he, h⟩ | ⟨rd, P, -, h⟩ | ⟨rd, rs, v, P, rm, -, h⟩ | ⟨rs, f, v, -, h⟩ <;> rw [h]
  · exact hs.setCode (by rcases he with rfl | rfl | rfl <;> decide)
  · exact (hs.writeImage rd P).setCode (by decide)
  · exact ((hs.writeImage rd P).setCode (by decide)).congr rfl rfl rfl rfl
  · exact (hs.congr rfl rfl rfl rfl : (s.writeFout v).Inv).setCode (by decide)

/-- A command that a word decodes to: what it may fault with is accounted for by that word, which is the one it records. -/
theorem exec_inv {w : Cmd} {i : Instr} {s t : State} (hw : decode w = .ok i) (hs : s.Inv) (h : exec i s = .next t) :
    t.Inv := by
  obtain ⟨henc, hwf⟩ := encode_and_wf_of_decode hw
  rcases exec_cases h with ⟨-, rfl⟩ | ⟨-, hill, -⟩ | ⟨-, -, hunset, rfl⟩ | ⟨-, -, -, hlong, rfl⟩ | ⟨-, -, -, -, rfl⟩
  · exact hs
  · exact absurd (hwf.symm.trans hill) (by decide)
  · have hreads : operandsOf i ≠ [] := fun hnil => by simp [hnil] at hunset
    exact hs.raiseFault ⟨i, by rw [henc, hw], hreads⟩
  · have hcounts : (countedOperand i).isSome = true := by
      cases hc : countedOperand i with
      | none => simp [hc, State.lengthOk] at hlong
      | some r => rfl
    exact hs.raiseFault ⟨i, by rw [henc, hw], hcounts⟩
  · exact commandRule_inv i hs

theorem hostIssue_inv {w : Cmd} {s t : State} (hs : s.Inv) (h : hostIssue w s = .next t) : t.Inv := by
  rcases hostIssue_cases w s with ⟨-, hgate⟩ | ⟨-, hill, hfault⟩ | ⟨-, i, hdec, hexec⟩
  · rw [hgate] at h; cases h
    exact hs
  · rw [hfault] at h; cases h
    exact hs.raiseFault hill
  · exact exec_inv hdec hs (hexec ▸ h)

theorem hostRead_inv {host id : Nat} {s t : State} (hs : s.Inv) (h : hostRead host id s = .next t) : t.Inv := by
  unfold hostRead at h
  split at h <;> cases h
  next r _ =>
    rcases readReg_cases s host r with ⟨-, hread⟩ | ⟨-, hread⟩ <;> rw [hread] <;> exact hs.congr rfl rfl rfl rfl

theorem hostWrite_inv {id : Nat} {v : HostValue} {s t : State} (hs : s.Inv) (h : hostWrite id v s = .next t) : t.Inv := by
  rcases hostWrite_cases id v s with ⟨r, P, -, -, hwr⟩ | ⟨a, -, -, hwr⟩ | hwr | ⟨e, hwr⟩ <;> rw [hwr] at h <;> cases h
  · exact hs.writeImage r P
  · exact hs.congr rfl rfl rfl rfl
  · exact hs

/-- Every host operation keeps the standing promises. -/
theorem performOp_inv {p : PortOp} {s t : State} (hs : s.Inv) (h : performOp p s = .next t) : t.Inv := by
  rcases performOp_cases p s with ⟨id, -, hop⟩ | ⟨id, v, -, hop⟩ | ⟨w, -, hop⟩ | ⟨-, hop⟩ <;> rw [hop] at h
  · exact hostRead_inv hs h
  · exact hostWrite_inv hs h
  · exact hostIssue_inv hs h
  · cases h
    exact hs.hostReset

/-- Settles O59: a step waits, or performs the head of the port on the state without it. -/
theorem invariantKeptByEveryStep : Obligations.InvariantKeptByEveryStep := by
  intro s t hs h
  cases hport : s.port with
  | nil =>
    rw [step_of_idle hport] at h; cases h
    exact hs
  | cons p rest =>
    rw [step_of_port hport] at h
    exact performOp_inv (hs.tail hport) h

/-- Settles O58: STATUS is noError's, FAULT and FAULTCMD are zero, nothing is pending. -/
theorem invariantAtReset : Obligations.InvariantAtReset :=
  ⟨⟨.noError, by decide, rfl⟩, .inl ⟨rfl, rfl⟩, by simp [State.hostsKnown, State.reset]⟩

end Sys2Proof.Machine
end

section
/-! SUPPORT. What a command leaves unchanged: the valid bits, the side registers, the host's side of the port, the registers
it does not write and the reserved field (spec/10_state.md rules R104 to R109). -/

namespace Sys2Proof.Machine

/-- Settles O52: the bank's own law of reading after writing. -/
theorem registerFileReadsWhatWasWritten : Obligations.RegisterFileReadsWhatWasWritten :=
  fun _ b r q x => Bank.get_set b r q x

/-! ## A command as a frame: no more than a fault, or its rule -/

/-- A command does nothing, takes a fault, or was ready and performs its rule. -/
theorem exec_fault_or_rule {i : Instr} {s t : State} (h : exec i s = .next t) :
    (¬ Ready i s ∧ (t = s ∨ ∃ c, t = s.raiseFault c (encode i))) ∨ (Ready i s ∧ t = commandRule i s) := by
  by_cases hr : Ready i s
  · rw [exec_ready hr] at h; cases h
    exact .inr ⟨hr, rfl⟩
  · refine .inl ⟨hr, ?_⟩
    rcases exec_cases h with ⟨-, ht⟩ | ⟨-, -, ht⟩ | ⟨-, -, -, ht⟩ | ⟨-, -, -, -, ht⟩ | ⟨hgate, hwf, hvalid, hlen, -⟩
    · exact .inl ht
    · exact .inr ⟨_, ht⟩
    · exact .inr ⟨_, ht⟩
    · exact .inr ⟨_, ht⟩
    · refine absurd ⟨hgate, hwf, List.all_eq_true.mp hvalid, fun r hc => ?_⟩ hr
      rw [Option.mem_def.mp hc] at hlen
      simpa [State.lengthOk] using hlen

/-! ## Valid bits (R106) -/

/-- The rule of a command sets its destination's valid bit where it succeeds, and changes no other. -/
theorem commandRule_valid (i : Instr) (s : State) (r : DReg) :
    (commandRule i s).isValid r = s.isValid r ∨
    ((commandRule i s).isValid r = true ∧ (commandRule i s).status = 0 ∧ destinationOf i = some r) := by
  have hset (rd : DReg) (P : Image) (hd : destinationOf i = some rd) :
      (s.writeImage rd P).isValid r = s.isValid r ∨
      ((s.writeImage rd P).isValid r = true ∧ CalcError.noError.status = 0 ∧ destinationOf i = some r) := by
    rcases eq_or_ne r rd with rfl | hr
    · exact .inr ⟨s.isValid_writeImage_same r P, rfl, hd⟩
    · exact .inl (s.isValid_writeImage_other rd r P hr)
  rcases commandRule_cases i s with ⟨e, -, h⟩ | ⟨rd, P, hd, h⟩ | ⟨rd, rs, v, P, rm, rfl, h⟩ | ⟨rs, f, v, -, h⟩ <;> rw [h]
  · exact .inl rfl
  · exact hset rd P hd
  · exact hset rd P rfl
  · exact .inl rfl

/-! ## Side registers (R107, R108, R109) -/

/-- The rule of a command leaves ARG and the host's side alone; REM is a successful DIVS's, FOUT an XFLD's. -/
theorem commandRule_side (i : Instr) (s : State) :
    (commandRule i s).arg = s.arg ∧ (commandRule i s).argValid = s.argValid ∧
    ((commandRule i s).rem = s.rem ∨ ∃ rd rs v, i = .divs rd rs v ∧ (commandRule i s).status = 0) ∧
    ((commandRule i s).fout = s.fout ∨ ∃ rs f, i = .xfld rs f ∧ (commandRule i s).status = 0) ∧
    (commandRule i s).draws = s.draws ∧ (commandRule i s).port = s.port ∧ (commandRule i s).replies = s.replies := by
  rcases commandRule_cases i s with ⟨e, -, h⟩ | ⟨rd, P, -, h⟩ | ⟨rd, rs, v, P, rm, hi, h⟩ | ⟨rs, f, v, hi, h⟩ <;> rw [h]
  · exact ⟨rfl, rfl, .inl rfl, .inl rfl, rfl, rfl, rfl⟩
  · exact ⟨rfl, rfl, .inl rfl, .inl rfl, rfl, rfl, rfl⟩
  · exact ⟨rfl, rfl, .inr ⟨rd, rs, v, hi, rfl⟩, .inl rfl, rfl, rfl, rfl⟩
  · exact ⟨rfl, rfl, .inl rfl, .inr ⟨rs, f, hi, rfl⟩, rfl, rfl, rfl⟩

/-- Settles O39: a fault touches none of these, and the rule only as `commandRule_side` says. -/
theorem sideRegistersHaveTheirOwnWriters : Obligations.SideRegistersHaveTheirOwnWriters := by
  intro i s t h
  rcases exec_fault_or_rule h with ⟨-, rfl | ⟨c, rfl⟩⟩ | ⟨-, rfl⟩
  · exact ⟨rfl, rfl, .inl rfl, .inl rfl, rfl, rfl, rfl⟩
  · exact ⟨rfl, rfl, .inl rfl, .inl rfl, rfl, rfl, rfl⟩
  · exact commandRule_side i s

/-- Settles O38: a fault touches no valid bit, and the rule only that of the command's destination. -/
theorem commandsOnlySetValidBits : Obligations.CommandsOnlySetValidBits := by
  intro i s t h
  obtain ⟨-, hargValid, -⟩ := sideRegistersHaveTheirOwnWriters i s t h
  refine ⟨hargValid, fun r => ?_⟩
  rcases exec_fault_or_rule h with ⟨-, rfl | ⟨c, rfl⟩⟩ | ⟨-, rfl⟩
  · exact .inl rfl
  · exact .inl rfl
  · refine (commandRule_valid i s r).imp_right fun ⟨hv, hstatus, hd⟩ => ⟨hv, hstatus, ?_⟩
    cases i <;> cases hd <;> rfl

/-! ## The registers a command does not write -/

/-- The rule of a command leaves every register but its destination. -/
theorem commandRule_image_other (i : Instr) (s : State) {r : DReg} (hr : destinationOf i ≠ some r) :
    (commandRule i s).image r = s.image r := by
  have hne {rd : DReg} (hd : destinationOf i = some rd) : r ≠ rd := fun h => hr (h ▸ hd)
  rcases commandRule_cases i s with ⟨e, -, h⟩ | ⟨rd, P, hd, h⟩ | ⟨rd, rs, v, P, rm, rfl, h⟩ | ⟨rs, f, v, -, h⟩ <;> rw [h]
  · rfl
  · exact s.image_writeImage_other rd r P (hne hd)
  · exact s.image_writeImage_other rd r P (hne rfl)
  · rfl

/-- Every command leaves every register but its destination. -/
theorem exec_image_other {i : Instr} {s t : State} (h : exec i s = .next t) {r : DReg} (hr : destinationOf i ≠ some r) :
    t.image r = s.image r := by
  rcases exec_fault_or_rule h with ⟨-, rfl | ⟨c, rfl⟩⟩ | ⟨-, rfl⟩
  · rfl
  · rfl
  · exact commandRule_image_other i s hr

/-! ## The reserved field of a result (R104) -/

/-- A field write that does not name the reserved field keeps it (R430). -/
theorem setField_rsv (d : Dec) {f : Field} (v : BitVec 32) (hrsv : f ≠ .rsv) (hctrl : f ≠ .ctrl) :
    (setField d f v).rsv = d.rsv := by
  cases f with
  | rsv => exact absurd rfl hrsv
  | ctrl => exact absurd rfl hctrl
  | exp | len | neg | cmp | isNaN | w i => rfl

theorem withCarry_rsv {d x : Dec} {p : List Word} {c : Word} (h : d.withCarry p c = .ok x) : x.rsv = d.rsv := by
  rcases withCarry_cases d p c with ⟨-, hx⟩ | ⟨-, -, hx⟩ | ⟨-, -, hx⟩ <;> rw [hx] at h <;> cases h <;>
    exact Dec.withResult_rsv ..

theorem addScalar_eq_withCarry (d : Dec) (v : Word) :
    d.addScalar v = d.withCarry (addChain d.active v).1 (addChain d.active v).2 := rfl

theorem addScalar_ne_noError (d : Dec) (v : Word) : d.addScalar v ≠ .error .noError :=
  withCarry_ne_noError _ _ _

/-- DIVS's rule: a divisor 0, or the quotient's words with the least length, and the remainder (R455). -/
theorem divScalar_cases (d : Dec) (v : Word) :
    (v = 0 ∧ d.divScalar v = .error .divideByZero) ∨
    (v ≠ 0 ∧ d.divScalar v = .ok (d.withResult (divChain v.toNat d.active).1
      (trimmedLength (divChain v.toNat d.active).1), BitVec.ofNat 16 (divChain v.toNat d.active).2)) := by
  by_cases hv : v = 0
  · exact .inl ⟨hv, if_pos hv⟩
  · exact .inr ⟨hv, if_neg hv⟩

theorem compacted_rsv (d : Dec) : d.compacted.rsv = d.rsv := by
  unfold Dec.compacted
  split <;> rfl

/-- A DIVS that divides leaves its quotient's record in the destination (R455). -/
theorem State.dec_finishDivision_ok (s : State) (rd : DReg) (q : Dec) (rm : Word) :
    (s.finishDivision rd (.ok (q, rm))).dec rd = q := s.dec_succeed_same rd q

/-- The register whose reserved field a command hands to its result: its operand, and for SFLD and SFLDI its destination
while the field named holds no reserved bit (R104). -/
def reservedSourceOf : Instr → Option DReg
  | .mov _ rs | .muls _ rs _ | .adds _ rs _ | .divs _ rs _ | .adje _ rs _ | .compact _ rs => some rs
  | .sfld rd f | .sfldi rd f _ => if f = .rsv ∨ f = .ctrl then none else some rd
  | .zero _ | .cvtu64 _ _ _ | .xfld _ _ => none

/-- The end of MULS, ADDS and ADJE: the reserved field of the rule's record, or the old register and an error. -/
theorem finish_rsv (s : State) {rd rs : DReg} {o : Except CalcError Dec} (herr : o ≠ .error .noError)
    (hok : ∀ x, o = .ok x → x.rsv = (s.dec rs).rsv) :
    ((s.finish rd o).image rd = s.image rd ∧ (s.finish rd o).status ≠ 0) ∨
    ((s.finish rd o).dec rd).rsv = (s.dec rs).rsv := by
  rcases finish_cases s rd o with ⟨x, ho, hfin⟩ | ⟨e, rfl, hfin⟩ <;> rw [hfin]
  · exact .inr ((congrArg Dec.rsv (s.dec_succeed_same rd x)).trans (hok x ho))
  · exact .inl ⟨rfl, fun hz => herr (congrArg _ ((CalcError.status_eq_zero_iff e).mp hz))⟩

/-- The rule of a command with a reserved source gives its result that reserved field, or leaves the destination with an
error. -/
theorem commandRule_rsv {i : Instr} (s : State) {rd rs : DReg} (hd : destinationOf i = some rd)
    (hs : reservedSourceOf i = some rs) :
    ((commandRule i s).image rd = s.image rd ∧ (commandRule i s).status ≠ 0) ∨
    ((commandRule i s).dec rd).rsv = (s.dec rs).rsv := by
  have hfield (d : Dec) (f : Field) (v : BitVec 32) (hf : ¬(f = .rsv ∨ f = .ctrl)) : (setField d f v).rsv = d.rsv :=
    setField_rsv d v (fun h => hf (.inl h)) (fun h => hf (.inr h))
  cases i with
  | zero | cvtu64 | xfld => cases hs
  | mov =>
    cases hd; cases hs
    exact .inr (congrArg Dec.rsv (s.dec_writeImage_same ..))
  | sfld d f | sfldi d f v =>
    cases hd
    obtain ⟨hf, hs⟩ := (ite_eq_iff.mp hs).resolve_left (by simp)
    cases hs
    exact .inr ((congrArg Dec.rsv (s.dec_succeed_same ..)).trans (hfield _ _ _ hf))
  | muls =>
    cases hd; cases hs
    exact finish_rsv s (mulScalar_ne_noError _ _) fun x hx => withCarry_rsv hx
  | adds =>
    cases hd; cases hs
    exact finish_rsv s (addScalar_ne_noError _ _) fun x hx => withCarry_rsv hx
  | adje =>
    cases hd; cases hs
    exact finish_rsv s (stepExp_ne_noError _ _) fun x hx => by rw [(stepExp_ok hx).2]
  | divs d r v =>
    cases hd; cases hs
    rcases divScalar_cases (s.dec rs) v with ⟨-, hdiv⟩ | ⟨-, hdiv⟩ <;> simp only [commandRule, hdiv]
    · exact .inl ⟨rfl, mt (CalcError.status_eq_zero_iff _).mp (by decide)⟩
    · exact .inr (by rw [State.dec_finishDivision_ok, Dec.withResult_rsv])
  | compact =>
    cases hd; cases hs
    exact .inr ((congrArg Dec.rsv (s.dec_succeed_same ..)).trans (compacted_rsv _))

/-- A command with a reserved source leaves its destination or gives it that reserved field, and does the latter whenever it
succeeds. -/
theorem exec_rsv {i : Instr} {s t : State} (h : exec i s = .next t) {rd rs : DReg} (hd : destinationOf i = some rd)
    (hs : reservedSourceOf i = some rs) :
    (t.image rd = s.image rd ∨ (t.dec rd).rsv = (s.dec rs).rsv) ∧
    (Ready i s → t.status = 0 → (t.dec rd).rsv = (s.dec rs).rsv) := by
  rcases exec_fault_or_rule h with ⟨hr, ht⟩ | ⟨-, rfl⟩
  · refine ⟨.inl ?_, fun hready => absurd hready hr⟩
    rcases ht with rfl | ⟨c, rfl⟩ <;> rfl
  · rcases commandRule_rsv s hd hs with ⟨hsame, herr⟩ | hrsv
    · exact ⟨.inl hsame, fun _ hstatus => absurd hstatus herr⟩
    · exact ⟨.inr hrsv, fun _ _ => hrsv⟩

/-- A command whose reserved source is its destination keeps the reserved field there, whether it succeeds or not. -/
theorem exec_rsv_self {i : Instr} {s t : State} (h : exec i s = .next t) {rd : DReg} (hd : destinationOf i = some rd)
    (hs : reservedSourceOf i = some rd) : (t.dec rd).rsv = (s.dec rd).rsv := by
  obtain ⟨hsame | hrsv, -⟩ := exec_rsv h hd hs
  · rw [State.dec, hsame, State.dec]
  · exact hrsv

/-- Settles O36: the frame of every command, and its reserved source where R104 gives it one. -/
theorem reservedFieldIsCarried : Obligations.ReservedFieldIsCarried := by
  intro i s t h
  have hframe (rd : DReg) (hd : destinationOf i = some rd) (r : DReg) (hr : r ≠ rd) : t.image r = s.image r :=
    exec_image_other h (by simpa [hd] using hr.symm)
  cases i with
  | zero rd => exact hframe rd rfl
  | cvtu64 rd => exact hframe rd rfl
  | xfld => exact fun r => exec_image_other h (by simp [destinationOf])
  | sfld rd f | sfldi rd f v =>
    exact ⟨hframe rd rfl, fun hrsv hctrl => exec_rsv_self h rfl (by simp [reservedSourceOf, hrsv, hctrl])⟩
  | mov rd | muls rd | adds rd | divs rd | adje rd | compact rd => exact ⟨hframe rd rfl, exec_rsv h rfl rfl⟩

end Sys2Proof.Machine
end

section
/-! SUPPORT. Records that agree but for the words beyond their length, and the commands that compute with the length
(spec/10_state.md rule R105). -/

namespace Sys2Proof.Machine

/-- The records agree on everything but the words at index length and above (R105). -/
def Dec.Agree (x y : Dec) : Prop :=
  x.exp = y.exp ∧ x.len = y.len ∧ x.neg = y.neg ∧ x.cmp = y.cmp ∧ x.rsv = y.rsv ∧ x.active = y.active

/-- Two outcomes of one rule: results in the relation, or the same error. -/
def SameOutcome {α : Type} (R : α → α → Prop) (o p : Except CalcError α) : Prop :=
  (∃ x y, o = .ok x ∧ p = .ok y ∧ R x y) ∨ ∃ e, o = .error e ∧ p = .error e

/-! ## The active words of a result -/

/-- A result's active words are its leading words, and none of the record's own (R105). -/
theorem active_withResult (d : Dec) {p : List Word} {n : Nat} (hn : n ≤ p.length) (hp : p.length ≤ 8) :
    (d.withResult p n).active = p.take n := by
  rw [Dec.active, Dec.withResult_len d p (hn.trans hp)]
  exact (congrArg (List.take n) (toList_withWords d p hp)).trans (List.take_append_of_le_length hn)

/-- A record cut down to a shorter length keeps the leading ones of its active words. -/
theorem take_active (d : Dec) {n : Nat} (hn : n ≤ d.len.toNat) : d.active.take n = d.w.toList.take n := by
  rw [Dec.active, List.take_take, min_eq_left hn]

theorem trimmedLength_le_length (q : List Word) : trimmedLength q ≤ q.length := by
  rw [trimmedLength_eq_digitCount]
  exact (digitCount_le_iff _ _ _ (wordsValue_lt q)).mpr (wordsValue_lt q)

/-- The least length of a magnitude is at most the length it was read with (R10, R501). -/
theorem nwords_mag_le (d : Dec) (h8 : d.len.toNat ≤ 8) : nwords d.mag ≤ d.len.toNat := by
  have hlt : d.mag < wordBase ^ d.len.toNat := by
    rw [← length_active d h8]
    exact wordsValue_lt d.active
  have hfuel : d.mag < wordBase ^ mantWords := hlt.trans_le (Nat.pow_le_pow_right (by decide) h8)
  exact (digitCount_le_iff _ _ _ hfuel).mpr hlt

/-! ## Agreement through the rules -/

/-- Agreement is kept by writing the same words with the same length. -/
theorem Dec.Agree.withResult {a b : Dec} (h : a.Agree b) {p : List Word} {n : Nat} (hn : n ≤ p.length)
    (hp : p.length ≤ 8) : (a.withResult p n).Agree (b.withResult p n) := by
  obtain ⟨hexp, -, hneg, -, hrsv, -⟩ := h
  exact ⟨hexp, rfl, hneg, rfl, hrsv, (active_withResult a hn hp).trans (active_withResult b hn hp).symm⟩

/-- The end of MULS and of ADDS reads nothing but the words handed to it and the length (R451, R453). -/
theorem withCarry_agree {a b : Dec} (h : a.Agree b) {p : List Word} (hp : p.length = a.len.toNat)
    (h8 : a.len.toNat ≤ 8) (c : Word) : SameOutcome Dec.Agree (a.withCarry p c) (b.withCarry p c) := by
  have hlen : b.len.toNat = a.len.toNat := by
    obtain ⟨-, hlen, -⟩ := h
    rw [hlen]
  by_cases hc : c = 0
  · refine .inl ⟨_, _, if_pos hc, if_pos hc, ?_⟩
    rw [hlen]
    exact h.withResult hp.ge (hp.le.trans h8)
  · by_cases hn : a.len.toNat = 8
    · exact .inr ⟨.overflow, (if_neg hc).trans (if_pos hn), (if_neg hc).trans (if_pos (hlen.trans hn))⟩
    · refine .inl ⟨_, _, (if_neg hc).trans (if_neg hn), (if_neg hc).trans (if_neg (hlen ▸ hn)), ?_⟩
      rw [hlen]
      exact h.withResult (by simp; omega) (by simp; omega)

theorem mulScalar_agree {a b : Dec} (h : a.Agree b) (h8 : a.len.toNat ≤ 8) (v : Word) :
    SameOutcome Dec.Agree (a.mulScalar v) (b.mulScalar v) := by
  have ⟨_, _, _, _, _, hact⟩ := h
  rw [mulScalar_eq_withCarry, mulScalar_eq_withCarry, ← hact]
  exact withCarry_agree h ((length_mulChain ..).trans (length_active a h8)) h8 _

theorem addScalar_agree {a b : Dec} (h : a.Agree b) (h8 : a.len.toNat ≤ 8) (v : Word) :
    SameOutcome Dec.Agree (a.addScalar v) (b.addScalar v) := by
  have ⟨_, _, _, _, _, hact⟩ := h
  rw [addScalar_eq_withCarry, addScalar_eq_withCarry, ← hact]
  exact withCarry_agree h ((length_addChain ..).trans (length_active a h8)) h8 _

theorem divScalar_agree {a b : Dec} (h : a.Agree b) (h8 : a.len.toNat ≤ 8) (v : Word) :
    SameOutcome (fun x y => x.1.Agree y.1 ∧ x.2 = y.2) (a.divScalar v) (b.divScalar v) := by
  have ⟨_, _, _, _, _, hact⟩ := h
  rcases divScalar_cases a v with ⟨hv, ha⟩ | ⟨hv, ha⟩
  · exact .inr ⟨.divideByZero, ha, if_pos hv⟩
  · have hlen : (divChain v.toNat a.active).1.length ≤ 8 := by rwa [length_divChain, length_active a h8]
    refine .inl ⟨_, _, ha, if_neg hv, ?_⟩
    rw [← hact]
    exact ⟨h.withResult (trimmedLength_le_length _) hlen, rfl⟩

/-- A compacted value that is not NaN: the least length, the sign of what is not zero, the flag (R501). -/
theorem compacted_of_not_nan {d : Dec} (h : d.isNaN = false) :
    d.compacted = { d with len := BitVec.ofNat 4 (nwords d.mag), neg := d.neg && nwords d.mag ≠ 0, cmp := true } := by
  simp [Dec.compacted, h]

theorem active_compacted {d : Dec} (h8 : d.len.toNat ≤ 8) (h : d.isNaN = false) :
    d.compacted.active = d.active.take (nwords d.mag) := by
  have hle := nwords_mag_le d h8
  have hlen : (BitVec.ofNat 4 (nwords d.mag)).toNat = nwords d.mag := Nat.mod_eq_of_lt (by omega)
  rw [compacted_of_not_nan h, take_active d hle, Dec.active, hlen]

theorem compacted_agree {a b : Dec} (h : a.Agree b) (h8 : a.len.toNat ≤ 8) : a.compacted.Agree b.compacted := by
  have ⟨hexp, hlen, hneg, _, hrsv, hact⟩ := h
  have hnan : a.isNaN = b.isNaN := by rw [Dec.isNaN, Dec.isNaN, hlen, hneg]
  have hmag : a.mag = b.mag := congrArg wordsValue hact
  cases ha : a.isNaN with
  | true => simpa [Dec.compacted, ha, ← hnan] using h
  | false =>
    have hb : b.isNaN = false := hnan ▸ ha
    have hactive : a.compacted.active = b.compacted.active := by
      rw [active_compacted h8 ha, active_compacted (hlen ▸ h8) hb, hact, hmag]
    refine ⟨?_, ?_, ?_, ?_, ?_, hactive⟩ <;>
      simp only [compacted_of_not_nan ha, compacted_of_not_nan hb, hexp, hneg, hrsv, hmag]

/-- Settles O35: each rule reads its operand's words only as its active words, and writes its own over as many. -/
theorem wordsBeyondTheLengthTakeNoPart : Obligations.WordsBeyondTheLengthTakeNoPart := by
  intro a b v h8 hexp hlen hneg hcmp hrsv hact same
  have h : a.Agree b := ⟨hexp, hlen, hneg, hcmp, hrsv, hact⟩
  refine ⟨?_, ?_, ?_, compacted_agree h h8⟩
  · rcases mulScalar_agree h h8 v with ⟨x, y, hx, hy, hxy⟩ | ⟨e, ha, hb⟩
    · rw [hx, hy]; exact hxy
    · rw [ha, hb]
  · rcases addScalar_agree h h8 v with ⟨x, y, hx, hy, hxy⟩ | ⟨e, ha, hb⟩
    · rw [hx, hy]; exact hxy
    · rw [ha, hb]
  · rcases divScalar_agree h h8 v with ⟨x, y, hx, hy, hxy⟩ | ⟨e, ha, hb⟩
    · rw [hx, hy]; exact hxy
    · rw [ha, hb]

end Sys2Proof.Machine
end

section
/-! SUPPORT. The bytes and the 32-bit views of an image and of ARG, put together from the image's fields and taken apart
again (spec/20_memory.md rules R203, R204, spec/30_encoding.md rule R302). -/

namespace Sys2Proof.Machine

/-! ## Neighbouring pieces of an image put together -/

/-- Two mantissa words make a view (R204). -/
theorem imageView_succ_eq_words (P : Image) (j : Nat) :
    imageView P (j + 1) = imageWord P (2 * j + 1) ++ imageWord P (2 * j) := by
  have hview : 32 * (j + 1) = 32 + 16 * (2 * j) := by omega
  have hnext : 32 + 16 * (2 * j + 1) = 32 + 16 * (2 * j) + 16 := by omega
  rw [imageView, imageWord, imageWord, hview, BitVec.extractLsb'_append_extractLsb'_eq_extractLsb' hnext]

/-- Two bytes make a mantissa word, low byte first (R203). -/
theorem imageWord_eq_bytes (P : Image) (i : Nat) :
    imageWord P i = imageByte P (5 + 2 * i) ++ imageByte P (4 + 2 * i) := by
  have hword : 32 + 16 * i = 8 * (4 + 2 * i) := by omega
  have hnext : 8 * (5 + 2 * i) = 8 * (4 + 2 * i) + 8 := by omega
  rw [imageWord, imageByte, imageByte, hword, BitVec.extractLsb'_append_extractLsb'_eq_extractLsb' hnext]

/-- Four bytes make view 0 (R203, R204). -/
theorem imageView_zero_eq_bytes (P : Image) :
    imageView P 0 = imageByte P 3 ++ imageByte P 2 ++ imageByte P 1 ++ imageByte P 0 := by
  apply BitVec.eq_of_toNat_eq
  simp only [imageView, imageByte, toNat_concat, toNat_field]
  omega

/-- The five views put together are the image (R204, R209). -/
theorem imageOfViews_imageView (P : Image) :
    imageOfViews (imageView P 0) (imageView P 1) (imageView P 2) (imageView P 3) (imageView P 4) = P := by
  apply BitVec.eq_of_toNat_eq
  simp only [imageOfViews, imageView, toNat_concat, toNat_field]
  omega

/-! ## The pieces of a record's image -/

/-- Byte 0 is the exponent (R203). -/
@[simp] theorem imageByte_zero_encodeImage (d : Dec) : imageByte (encodeImage d) 0 = d.exp :=
  congrArg Dec.exp (decodeImage_encodeImage d)

/-- Byte 1 is the control byte (R302). -/
@[simp] theorem imageByte_one_encodeImage (d : Dec) : imageByte (encodeImage d) 1 = ctrlByte d :=
  BitVec.eq_of_toNat_eq ((toNat_field ..).trans (controlByte_encodeImage d))

/-- Bytes 2 and 3 are the low reserved field (R203). -/
@[simp] theorem imageBytes_reserved_encodeImage (d : Dec) :
    imageByte (encodeImage d) 3 ++ imageByte (encodeImage d) 2 = d.rsv.extractLsb' 0 16 := by
  have hunit : imageByte (encodeImage d) 3 ++ imageByte (encodeImage d) 2 = (encodeImage d).extractLsb' 16 16 :=
    BitVec.extractLsb'_append_extractLsb'_eq_extractLsb' rfl
  apply BitVec.eq_of_toNat_eq
  rw [hunit, toNat_field, toNat_field, reservedLow_encodeImage, pow_zero, Nat.div_one]

/-- View 0 holds the low reserved field, the control byte and the exponent (R204). -/
theorem imageView_zero_encodeImage (d : Dec) :
    imageView (encodeImage d) 0 = d.rsv.extractLsb' 0 16 ++ ctrlByte d ++ d.exp := by
  rw [imageView_zero_eq_bytes, imageBytes_reserved_encodeImage, imageByte_one_encodeImage, imageByte_zero_encodeImage]

/-- The views above view 0 hold two mantissa words each (R204). -/
theorem imageView_succ_encodeImage (d : Dec) (j : Nat) (hj : 2 * j + 1 < 8) :
    imageView (encodeImage d) (j + 1) = d.w[2 * j + 1] ++ d.w[2 * j] := by
  rw [imageView_succ_eq_words, imageWord_encodeImage d _ hj, imageWord_encodeImage d _ (by omega)]

/-- Settles O12: each view as the fields it holds, and the views side by side. The bound on j is not used: a view beyond the
image reads zeros, as the division does. -/
theorem wordViewsOfAnImage : Obligations.WordViewsOfAnImage := by
  refine ⟨fun P j _ => toNat_field P (32 * j) 32, fun d => ?_, imageOfViews_imageView, fun a => ⟨?_, ?_⟩⟩
  · exact ⟨imageView_zero_encodeImage d, imageView_succ_encodeImage d 0 (by decide),
      imageView_succ_encodeImage d 1 (by decide), imageView_succ_encodeImage d 2 (by decide),
      imageView_succ_encodeImage d 3 (by decide)⟩
  · rw [argView, toNat_field, mul_zero, pow_zero, Nat.div_one]
  · have ha := a.isLt
    rw [argView, toNat_field]
    omega

/-! ## The control byte -/

/-- The length, the sign, the compact flag and the high reserved bits, read from the control byte (R302). -/
theorem ctrlByte_fields (d : Dec) :
    (ctrlByte d).extractLsb' 4 4 = d.len ∧ (ctrlByte d).getLsbD 3 = d.neg ∧ (ctrlByte d).getLsbD 2 = d.cmp ∧
    (ctrlByte d).extractLsb' 0 2 = d.rsv.extractLsb' 16 2 := by
  have hr := d.rsv.isLt
  have hn := d.neg.toNat_lt
  have hm := d.cmp.toNat_lt
  have hbyte := toNat_ctrlByte d
  refine ⟨?_, ?_, ?_, BitVec.extractLsb'_append_eq_right⟩
  · apply BitVec.eq_of_toNat_eq
    rw [toNat_field]
    omega
  · rw [getLsbD_iff_field, Bool.eq_iff_iff, decide_eq_true_iff, ← Bool.toNat_eq_one]
    omega
  · rw [getLsbD_iff_field, Bool.eq_iff_iff, decide_eq_true_iff, ← Bool.toNat_eq_one]
    omega

/-- Settles O13: each byte of a record's image, and the control byte's own fields. The bound on k is not used, as in O12. -/
theorem bytesOfAnImage : Obligations.BytesOfAnImage := by
  refine ⟨fun P k _ => toNat_field P (8 * k) 8, fun d => ?_⟩
  have hword (i : Fin 8) :
      imageByte (encodeImage d) (5 + 2 * i.val) ++ imageByte (encodeImage d) (4 + 2 * i.val) = d.w[i] := by
    rw [← imageWord_eq_bytes]
    exact imageWord_encodeImage d i.val i.isLt
  exact ⟨imageByte_zero_encodeImage d, imageByte_one_encodeImage d, imageBytes_reserved_encodeImage d, hword,
    ctrlByte_fields d⟩

end Sys2Proof.Machine
end

section
/-! SUPPORT. The host operations one by one (spec/20_memory.md rules R202 to R209): the register an id names, what a
HostRead answers, what a HostWrite writes, which command a HostIssue performs, and the port's next operation. -/

namespace Sys2Proof.Machine

/-! ## Register ids (R202) -/

@[simp] theorem HostReg.ofId_code (r : DReg) : HostReg.ofId r.code.toNat = some (.d r) := by cases r <;> rfl

/-- An id above 9 names no register. -/
theorem HostReg.ofId_of_gt {id : Nat} (h : 9 < id) : HostReg.ofId id = none := by
  obtain ⟨n, rfl⟩ := Nat.exists_eq_add_of_le' (Nat.succ_le_of_lt h)
  rfl

/-- The ids 5 to 9 name the registers that no host writes. -/
theorem HostReg.ofId_readOnly {id : Nat} (hlow : 5 ≤ id) (hhigh : id ≤ 9) :
    HostReg.ofId id = some .rem ∨ HostReg.ofId id = some .fout ∨ HostReg.ofId id = some .status ∨
    HostReg.ofId id = some .fault ∨ HostReg.ofId id = some .faultcmd := by
  interval_cases id <;> decide

/-! ## HostRead (R205) -/

/-- A read answers a register's contents where they are specified, and else a draw. -/
theorem performOp_read {id : Nat} {r : HostReg} (hid : HostReg.ofId id = some r) {known : Bool} {s : State}
    (hknown : s.unspecified r = !known) (h : Nat) :
    performOp ⟨h, .read id⟩ s =
      .next (if known then s.answer h r (s.contents r) else s.drawn.answer h r (drawOf s.draws s r)) := by
  have hread : performOp ⟨h, .read id⟩ s = .next (s.readReg h r) := by
    simp only [performOp, hostRead, hid]
  rw [hread]
  rcases readReg_cases s h r with ⟨hu, hs⟩ | ⟨hu, hs⟩ <;> rw [hu] at hknown <;> cases known
  · cases hknown
  · rw [hs, if_pos rfl]
  · rw [hs, if_neg Bool.false_ne_true]
  · cases hknown

theorem performOp_read_none {id : Nat} (hid : HostReg.ofId id = none) (h : Nat) (s : State) :
    performOp ⟨h, .read id⟩ s = .refused (.noSuchRegister id) := by
  simp only [performOp, hostRead, hid]

/-- Settles O50: the law of a read, register by register, with the width each answer has. -/
theorem hostReadAnswersTheRegister : Obligations.HostReadAnswersTheRegister := by
  intro h s
  refine ⟨?_, performOp_read rfl rfl h, ?_, performOp_read rfl rfl h, performOp_read (known := true) rfl rfl h,
    performOp_read (known := true) rfl rfl h, performOp_read (known := true) rfl rfl h⟩
  · rintro id r rfl
    exact performOp_read (HostReg.ofId_code r) rfl h
  · rw [BitVec.ofNat_toNat, BitVec.ofNat_toNat]
    exact performOp_read rfl rfl h

/-! ## HostWrite (R206, R209) -/

@[simp] theorem performOp_write (h id : Nat) (v : HostValue) (s : State) :
    performOp ⟨h, .write id v⟩ s = hostWrite id v s := rfl

theorem hostWrite_image {id : Nat} {r : DReg} (hid : HostReg.ofId id = some (.d r)) (P : Image) (s : State) :
    hostWrite id (.image P) s = .next (s.writeImage r P) := by
  simp only [hostWrite, hid]

theorem hostWrite_magnitude {id : Nat} (hid : HostReg.ofId id = some .arg) (a : BitVec 64) (s : State) :
    hostWrite id (.magnitude a) s = .next (s.writeArg a) := by
  simp only [hostWrite, hid]

/-- A decimal register takes nothing but an image. -/
theorem hostWrite_d_refused {id : Nat} {r : DReg} (hid : HostReg.ofId id = some (.d r)) {v : HostValue}
    (hv : ∀ P, v ≠ .image P) (s : State) : hostWrite id v s = .refused (.notAWholeRegister id) := by
  cases v with
  | image P => exact absurd rfl (hv P)
  | magnitude | word => simp only [hostWrite, hid]

/-- ARG takes nothing but 64 bits. -/
theorem hostWrite_arg_refused {id : Nat} (hid : HostReg.ofId id = some .arg) {v : HostValue}
    (hv : ∀ a, v ≠ .magnitude a) (s : State) : hostWrite id v s = .refused (.notAWholeRegister id) := by
  cases v with
  | magnitude a => exact absurd rfl (hv a)
  | image | word => simp only [hostWrite, hid]

theorem hostWrite_readOnly {id : Nat} (hlow : 5 ≤ id) (hhigh : id ≤ 9) (v : HostValue) (s : State) :
    hostWrite id v s = .next s := by
  rcases HostReg.ofId_readOnly hlow hhigh with hid | hid | hid | hid | hid <;> simp only [hostWrite, hid]

theorem hostWrite_none {id : Nat} (hid : HostReg.ofId id = none) (v : HostValue) (s : State) :
    hostWrite id v s = .refused (.noSuchRegister id) := by
  simp only [hostWrite, hid]

/-- Settles O51: the laws of a write of an image, of a magnitude, and of what no host writes. -/
theorem hostWriteWritesTheRegister : Obligations.HostWriteWritesTheRegister := by
  intro h s
  simp only [performOp_write]
  refine ⟨?_, fun a => hostWrite_magnitude rfl a s, fun id v hlow hhigh => hostWrite_readOnly hlow hhigh v s⟩
  rintro id r P rfl
  exact hostWrite_image (HostReg.ofId_code r) P s

/-- Settles O53: an id above 9 names no register; a value of another width is not the whole register. -/
theorem operationsOffTheInterfaceAreRefused : Obligations.OperationsOffTheInterfaceAreRefused := by
  simp only [Obligations.OperationsOffTheInterfaceAreRefused, performOp_write]
  refine ⟨fun h id v s hid => ?_, fun h s P a x => ⟨?_, ?_, ?_⟩⟩
  · have hnone := HostReg.ofId_of_gt hid
    exact ⟨performOp_read_none hnone h s, hostWrite_none hnone v s⟩
  · rintro id r rfl
    exact ⟨hostWrite_d_refused (HostReg.ofId_code r) (by simp) s, hostWrite_d_refused (HostReg.ofId_code r) (by simp) s⟩
  · exact hostWrite_arg_refused rfl (by simp) s
  · exact hostWrite_arg_refused rfl (by simp) s

theorem State.writeImage_writeImage (s : State) (r : DReg) (P Q : Image) :
    (s.writeImage r P).writeImage r Q = s.writeImage r Q := by
  simp only [State.writeImage, Bank.set_set]

/-- A write that ran changes nothing when it runs again (R210). -/
theorem hostWrite_idempotent {id : Nat} {v : HostValue} {s t : State} (h : hostWrite id v s = .next t) :
    hostWrite id v t = .next t := by
  rcases hostWrite_cases id v s with ⟨r, P, hid, rfl, hwr⟩ | ⟨a, hid, rfl, hwr⟩ | hwr | ⟨e, hwr⟩ <;>
    have ht := hwr.symm.trans h <;> cases ht
  · rw [hostWrite_image hid, State.writeImage_writeImage]
  · exact hostWrite_magnitude hid a _
  · exact h

/-! ## HostIssue and the port's next operation (R207, R212) -/

@[simp] theorem performOp_issue (h : Nat) (w : Cmd) (s : State) : performOp ⟨h, .issue w⟩ s = hostIssue w s := rfl

/-- Issuing the word of a command is performing the command: the gate is the command's own first check (R312). -/
theorem hostIssue_of_decode {w : Cmd} {i : Instr} (hw : decode w = .ok i) (s : State) : hostIssue w s = exec i s := by
  rcases hostIssue_cases w s with ⟨hgate, hs⟩ | ⟨-, ⟨e, he⟩, -⟩ | ⟨-, j, hj, hs⟩
  · rw [hs, exec_eq_execute, State.execute, if_pos hgate]
  · cases hw.symm.trans he
  · cases hw.symm.trans hj
    exact hs

/-- Settles O6: the step's own law with an operation pending and with none. -/
theorem stepRunsTheIssuedCommand : Obligations.StepRunsTheIssuedCommand := by
  refine ⟨fun s h w rest i hport hw => ?_, fun s p rest => step_of_port, fun s => step_of_idle⟩
  rw [step_of_port hport, performOp_issue, hostIssue_of_decode hw]

/-- A row that reads as a command holds that command's word. -/
theorem decode_of_decodeTableWord {nbits w : Nat} {i : Instr} (h : decodeTableWord nbits w = some i) :
    decode (BitVec.ofNat 32 (w % 2 ^ nbits)) = .ok i := by
  unfold decodeTableWord at h
  split at h
  · split at h <;> cases h
    assumption
  · cases h

/-- Settles O7: the placed word is issued next, and the port is then as it was before. -/
theorem placedTableWordRunsNext : Obligations.PlacedTableWordRunsNext := by
  intro s nbits w i h
  have hport : (s.withFetchWord nbits w).port = ⟨0, .issue (BitVec.ofNat 32 (w % 2 ^ nbits))⟩ :: s.port := rfl
  rw [step_of_port hport, performOp_issue, hostIssue_of_decode (decode_of_decodeTableWord h)]
  rfl

end Sys2Proof.Machine
end

section
/-! SUPPORT. A product that fits, issued twice (spec/20_memory.md rule R210, spec/41_arithmetic.md rule R451). -/

namespace Sys2Proof.Machine

/-- A product below 2^128 needs no ninth word, so MULS gives a record (R451). -/
theorem mulScalar_of_fits {d : Dec} {v : Word} (h8 : d.len.toNat ≤ 8) (hfit : d.mag * v.toNat < 2 ^ 128) :
    ∃ x, d.mulScalar v = .ok x := by
  rw [mulScalar_eq_withCarry]
  rcases withCarry_cases d (mulChain v d.active 0).1 (mulChain v d.active 0).2 with
    ⟨-, h⟩ | ⟨hc, hn, -⟩ | ⟨-, -, h⟩
  · exact ⟨_, h⟩
  · have hvalue : _ = d.mag * v.toNat + 0 := value_mulChain v d.active 0
    have hcarry : 1 ≤ (mulChain v d.active 0).2.toNat := Nat.pos_of_ne_zero fun h0 => hc (BitVec.eq_of_toNat_eq h0)
    have hbig : 2 ^ 128 ≤ wordBase ^ d.active.length * (mulChain v d.active 0).2.toNat := by
      rw [length_active d h8, hn, wordBase_pow]
      exact Nat.le_mul_of_pos_right _ hcarry
    omega
  · exact ⟨_, h⟩

/-- MULS of a product that fits: its record, of that magnitude, in the destination (R451, R452). -/
theorem exec_muls_of_fits {rd rs : DReg} {v : Word} {s : State} (hgate : s.faultLatched = false)
    (hvalid : s.isValid rs = true) (h8 : (s.dec rs).len.toNat ≤ 8) (hfit : (s.dec rs).mag * v.toNat < 2 ^ 128) :
    ∃ x, exec (.muls rd rs v) s = .next (s.succeed rd x) ∧ x.mag = (s.dec rs).mag * v.toNat ∧ x.len.toNat ≤ 8 := by
  obtain ⟨x, hx⟩ := mulScalar_of_fits h8 hfit
  obtain ⟨hmag, hx8, -⟩ := mulScalar_ok h8 hx
  have hready : Ready (.muls rd rs v) s :=
    ⟨hgate, rfl, by simpa [operandsOf, State.sourceValid] using hvalid, by simpa [countedOperand] using h8⟩
  refine ⟨x, ?_, hmag, hx8⟩
  rw [exec_ready hready, commandRule, hx]
  rfl

/-- Settles O54: a write that ran is a fixed point; two products that fit are the product by 100. -/
theorem writeTwiceIsOnceAndIssueTwiceIsNot : Obligations.WriteTwiceIsOnceAndIssueTwiceIsNot := by
  refine fun h s => ⟨fun id v t => hostWrite_idempotent, fun hgate hvalid h8 hfit => ?_⟩
  have hten : (10 : Word).toNat = 10 := rfl
  have hword : decode 0x1000000A = .ok (.muls .d0 .d0 10) := by decide
  obtain ⟨x, hx, hxmag, hx8⟩ := exec_muls_of_fits (rd := .d0) (v := 10) hgate hvalid h8 (by rw [hten]; omega)
  have hdec : (s.succeed .d0 x).dec .d0 = x := s.dec_succeed_same .d0 x
  obtain ⟨y, hy, hymag, -⟩ := exec_muls_of_fits (s := s.succeed .d0 x) (rd := .d0) (rs := .d0) (v := 10) hgate rfl
    (by rwa [hdec]) (by rw [hdec, hxmag, hten]; omega)
  refine ⟨(s.succeed .d0 x).succeed .d0 y, ?_, ?_, rfl⟩
  · simp only [performAll, performOp_issue, hostIssue_of_decode hword, hx, hy]
  · rw [State.dec_succeed_same, hymag, hdec, hxmag, hten]
    omega

end Sys2Proof.Machine
end

section
/-! SUPPORT. The port's list is no part of what an operation does, so running the port is performing its operations in its
order (spec/20_memory.md rule R212). -/

namespace Sys2Proof.Machine

/-! ## Replacing what is pending -/

/-- The state with other operations pending. -/
def State.withPort (s : State) (q : List PortOp) : State := { s with port := q }

/-- The outcome with other operations pending in its next state, if it has one. -/
def outcomeWithPort (q : List PortOp) : Host.Outcome State Fault Refusal → Host.Outcome State Fault Refusal
  | .next s => .next (s.withPort q)
  | .fault r => .fault r
  | .refused r => .refused r

theorem finish_withPort (s : State) (q : List PortOp) (rd : DReg) (o : Except CalcError Dec) :
    (s.withPort q).finish rd o = (s.finish rd o).withPort q := by
  cases o <;> rfl

theorem finishDivision_withPort (s : State) (q : List PortOp) (rd : DReg) (o : Except CalcError (Dec × Word)) :
    (s.withPort q).finishDivision rd o = (s.finishDivision rd o).withPort q := by
  cases o <;> rfl

/-- The rule of a command does not read or write what is pending. -/
theorem commandRule_withPort (i : Instr) (s : State) (q : List PortOp) :
    commandRule i (s.withPort q) = (commandRule i s).withPort q := by
  cases i with
  | zero | mov | cvtu64 | xfld | sfld | sfldi | compact => rfl
  | muls | adds | adje => exact finish_withPort s q _ _
  | divs => exact finishDivision_withPort s q _ _

/-- Neither do a command's checks, nor a fault. -/
theorem exec_withPort (i : Instr) (s : State) (q : List PortOp) :
    exec i (s.withPort q) = outcomeWithPort q (exec i s) := by
  rw [exec_eq_execute, exec_eq_execute]
  refine congrArg Host.Outcome.next ?_
  have hvalid : (s.withPort q).sourceValid = s.sourceValid := by
    funext x
    cases x <;> rfl
  have hlength : (s.withPort q).lengthOk (countedOperand i) = s.lengthOk (countedOperand i) := by
    cases countedOperand i <;> rfl
  have hgate : (s.withPort q).faultLatched = s.faultLatched := rfl
  simp only [State.execute, hgate, hvalid, hlength, commandRule_withPort]
  split_ifs <;> rfl

theorem hostIssue_withPort (w : Cmd) (s : State) (q : List PortOp) :
    hostIssue w (s.withPort q) = outcomeWithPort q (hostIssue w s) := by
  have hgate : (s.withPort q).faultLatched = s.faultLatched := rfl
  simp only [hostIssue, hgate]
  split
  · rfl
  · split
    · exact exec_withPort ..
    · rfl

theorem readReg_withPort (s : State) (q : List PortOp) (h : Nat) (r : HostReg) :
    (s.withPort q).readReg h r = (s.readReg h r).withPort q := by
  have hunspecified : (s.withPort q).unspecified r = s.unspecified r := by cases r <;> rfl
  have hcontents : (s.withPort q).contents r = s.contents r := by cases r <;> rfl
  have hdraw : drawOf s.draws (s.withPort q) r = drawOf s.draws s r := by cases r <;> rfl
  rcases readReg_cases s h r with ⟨hu, hs⟩ | ⟨hu, hs⟩ <;> rw [hs, State.readReg, hunspecified, hu]
  · rw [if_neg Bool.false_ne_true, hcontents]
    rfl
  · rw [if_pos rfl]
    exact congrArg (State.answer _ h r) hdraw

theorem hostRead_withPort (h id : Nat) (s : State) (q : List PortOp) :
    hostRead h id (s.withPort q) = outcomeWithPort q (hostRead h id s) := by
  cases hid : HostReg.ofId id with
  | none => simp only [hostRead, hid, outcomeWithPort]
  | some r => simp only [hostRead, hid, outcomeWithPort, readReg_withPort]

theorem hostWrite_withPort (id : Nat) (v : HostValue) (s : State) (q : List PortOp) :
    hostWrite id v (s.withPort q) = outcomeWithPort q (hostWrite id v s) := by
  unfold hostWrite
  cases HostReg.ofId id with
  | none => rfl
  | some r => cases r <;> cases v <;> rfl

/-- No operation reads or writes what is pending behind it (R212). -/
theorem performOp_withPort (p : PortOp) (s : State) (q : List PortOp) :
    performOp p (s.withPort q) = outcomeWithPort q (performOp p s) := by
  obtain ⟨h, op⟩ := p
  cases op with
  | read id => exact hostRead_withPort h id s q
  | write id v => exact hostWrite_withPort id v s q
  | issue w => exact hostIssue_withPort w s q
  | reset => rfl

/-! ## Running the port -/

/-- One step of a run with an operation pending: it is performed, and the run goes on where it gave a next state. -/
theorem core_run_withPort_cons (p : PortOp) (ps : List PortOp) (k : Nat) (s : State) :
    (∀ t, performOp p s = .next t →
      Sys2Proof.core.run (k + 1) (s.withPort (p :: ps)) = Sys2Proof.core.run k (t.withPort ps)) ∧
    ∀ r, performOp p s = .refused r → Sys2Proof.core.run (k + 1) (s.withPort (p :: ps)) = .refused r := by
  have hstep : Sys2Proof.core.step (s.withPort (p :: ps)) = outcomeWithPort ps (performOp p s) :=
    (step_of_port (s := s.withPort (p :: ps)) rfl).trans (performOp_withPort p s ps)
  constructor <;> intro x hx <;> simp only [Host.Core.run, hstep, hx, outcomeWithPort]

/-- As many steps as the port has operations before the rest perform them in their order (R212). -/
theorem core_run_port (ops rest : List PortOp) (s : State) :
    Sys2Proof.core.run ops.length (s.withPort (ops ++ rest)) = performAll ops (s.withPort rest) := by
  induction ops generalizing s with
  | nil => rfl
  | cons p ps ih =>
    obtain ⟨hnext, hrefused⟩ := core_run_withPort_cons p (ps ++ rest) ps.length s
    have hperform := performOp_withPort p s rest
    cases hp : performOp p s with
    | next t =>
      rw [hp] at hperform
      simp only [performAll, hperform, outcomeWithPort]
      exact (hnext t hp).trans (ih t)
    | refused r =>
      rw [hp] at hperform
      simp only [performAll, hperform, outcomeWithPort]
      exact hrefused r hp
    | fault r => cases r

/-- The promises hold with any operations pending whose hosts are among the HOST_COUNT (R5, R212). -/
theorem State.Inv.withPort {s : State} (hs : s.Inv) {q : List PortOp} (hq : ∀ p ∈ q, p.host < Config.hostCount) :
    (s.withPort q).Inv := by
  obtain ⟨hstatus, hfault, -⟩ := hs
  exact ⟨hstatus, hfault, hq⟩

/-- Settles O60: the run of the port, for a rest of the list and for a whole interleaving, whose hosts are those of its
programs. -/
theorem portRunsOneTotalOrder : Obligations.PortRunsOneTotalOrder := by
  refine ⟨core_run_port, fun programs order s hs hcount ⟨hhosts, _⟩ => ⟨?_, ?_⟩⟩
  · exact hs.withPort fun p hp => (hhosts p hp).trans_le hcount
  · have hrun := core_run_port order [] s
    rwa [List.append_nil] at hrun

end Sys2Proof.Machine
end

section
/-! SUPPORT. Every well-formed command is read back from its word, and which words are legal: the opcode, the must-be-zero
fields and the selector of each command, and the rows of the opcode table (spec/30_encoding.md rules R305 to R313). -/

namespace Sys2Proof

/-! ## The word of a command decodes to it -/

@[simp] theorem fieldOp_encode (i : Instr) : fieldOp (encode i) = i.opcode.code := by
  cases i <;> exact fieldOp_packCmd ..

/-- The word of a well-formed command passes the checks of its own opcode, and gives the command's operands back. -/
theorem decodeOp_encode {i : Instr} (hwf : i.wf = true) : decodeOp i.opcode (encode i) = .ok i := by
  cases i with
  | zero | mov | muls | adds | divs | adje | compact => simp [Instr.opcode, encode, decodeOp, requireZero_ok_iff]
  | cvtu64 rd e n => simp [Instr.opcode, encode, decodeOp, requireZero_ok_iff]
  | xfld rs f =>
    have hsel : selectReadable f.code = .ok f := (selectReadable_ok_iff _ _).mpr rfl
    simp [Instr.opcode, encode, decodeOp, requireZero_ok_iff, hsel, Except.map]
  | sfld rd f | sfldi rd f _ =>
    have hsel : selectWritable f.code = .ok f := (selectWritable_ok_iff _ _).mpr ⟨rfl, hwf⟩
    simp [Instr.opcode, encode, decodeOp, requireZero_ok_iff, hsel, Except.map]

theorem decode_encode {i : Instr} (hwf : i.wf = true) : decode (encode i) = .ok i :=
  (decode_ok_iff _ _).mpr ⟨i.opcode, fieldOp_encode i, decodeOp_encode hwf⟩

/-- Settles O1: the opcode of the word selects the command's own row, whose checks its fields pass. -/
theorem decodeInvertsEncode : Obligations.DecodeInvertsEncode :=
  fun _ hwf => decode_encode hwf

/-- Settles O2: the checks of each opcode leave no bit of the word out of the command. -/
theorem encodeInvertsDecode : Obligations.EncodeInvertsDecode :=
  fun _ _ h => encode_and_wf_of_decode h

/-- Settles O5: each word is the word that the encoder gives its command. -/
theorem sampleWordsDecode : Obligations.SampleWordsDecode :=
  ⟨decode_encode (i := .zero .d2) rfl, decode_encode (i := .mov .d1 .d0) rfl, decode_encode (i := .cvtu64 .d1 0xFE true) rfl,
    decode_encode (i := .xfld .d2 (.w 3)) rfl, decode_encode (i := .sfld .d3 .rsv) rfl,
    decode_encode (i := .sfldi .d0 .neg 1) rfl, decode_encode (i := .muls .d1 .d0 10) rfl,
    decode_encode (i := .adds .d1 .d1 1) rfl, decode_encode (i := .divs .d2 .d1 7) rfl,
    decode_encode (i := .adje .d0 .d0 0xFF81) rfl, decode_encode (i := .compact .d2 .d0) rfl⟩

/-! ## The selectors (R308, R310) -/

/-- Every selector but 7 names a field. -/
theorem exists_selectReadable_iff (fs : BitVec 4) : (∃ f, selectReadable fs = .ok f) ↔ fs ≠ 7 := by
  simp only [selectReadable_ok_iff]
  constructor
  · rintro ⟨f, rfl⟩ h7
    have hnone := Field.ofCode_code f
    rw [h7] at hnone
    cases hnone
  · intro h7
    have hsome : ∀ c : BitVec 4, c ≠ 7 → (Field.ofCode c).isSome = true := by decide
    obtain ⟨f, hf⟩ := Option.isSome_iff_exists.mp (hsome fs h7)
    exact ⟨f, (Field.code_of_ofCode fs f hf).symm⟩

theorem Field.writable_eq_true_iff (f : Field) : f.writable = true ↔ f ≠ .isNaN := by
  cases f <;> simp [Field.writable]

/-- Every selector but 5, the read-only field, and 7 names a field to be written. -/
theorem exists_selectWritable_iff (fs : BitVec 4) : (∃ f, selectWritable fs = .ok f) ↔ fs ≠ 5 ∧ fs ≠ 7 := by
  simp only [← exists_selectReadable_iff, selectWritable_ok_iff, selectReadable_ok_iff, Field.writable_eq_true_iff]
  constructor
  · rintro ⟨f, rfl, hf⟩
    refine ⟨fun h5 => hf ?_, f, rfl⟩
    have hisNaN : Field.ofCode f.code = some .isNaN := by rw [h5]; rfl
    exact Option.some.inj ((Field.ofCode_code f).symm.trans hisNaN)
  · rintro ⟨h5, f, rfl⟩
    exact ⟨f, rfl, by rintro rfl; exact h5 rfl⟩

/-! ## The words that decode (R310, R311) -/

/-- The fields that R311 lists for an opcode are zero in the word. -/
def Opcode.mustBeZero (w : Cmd) : Opcode → Prop
  | .zero => fieldRs w = 0 ∧ fieldFs w = 0 ∧ fieldImm w = 0
  | .mov => fieldFs w = 0 ∧ fieldImm w = 0
  | .cvtu64 => fieldRs w = 0 ∧ fieldFs w = 0 ∧ immHigh (fieldImm w) = 0
  | .xfld => fieldRd w = 0 ∧ fieldImm w = 0
  | .sfld => fieldRs w = 0 ∧ fieldImm w = 0
  | .sfldi => fieldRs w = 0
  | .muls | .adds | .divs | .adje => fieldFs w = 0
  | .compact => fieldFs w = 0 ∧ fieldImm w = 0

/-- The selector rule of R310 (c), for the opcode of a word. -/
def Opcode.selectorAllowed (fs : BitVec 4) : Opcode → Prop
  | .xfld => fs ≠ 7
  | .sfld | .sfldi => fs ≠ 5 ∧ fs ≠ 7
  | .zero | .mov | .cvtu64 | .muls | .adds | .divs | .adje | .compact => True

theorem exists_requireZero_iff (w : Cmd) (b : Bool) (x : Except Reject Instr) :
    (∃ i, requireZero w b x = .ok i) ↔ b = true ∧ ∃ i, x = .ok i := by
  simp only [requireZero_ok_iff, exists_and_left]

theorem exists_map_ok_iff {ε α β : Type} (f : α → β) (o : Except ε α) : (∃ y, o.map f = .ok y) ↔ ∃ x, o = .ok x := by
  cases o <;> simp [Except.map]

/-- The checks of one opcode are its must-be-zero fields and its selector. -/
theorem exists_decodeOp_iff (op : Opcode) (w : Cmd) :
    (∃ i, decodeOp op w = .ok i) ↔ op.mustBeZero w ∧ op.selectorAllowed (fieldFs w) := by
  cases op <;>
    simp only [decodeOp, exists_requireZero_iff, exists_map_ok_iff, exists_selectReadable_iff, exists_selectWritable_iff,
      Opcode.mustBeZero, Opcode.selectorAllowed, decide_eq_true_eq, Except.ok.injEq, exists_eq']

/-- R310 as the model decides it: the opcode, the must-be-zero fields, the selector. -/
theorem exists_decode_iff (w : Cmd) :
    (∃ i, decode w = .ok i) ↔
      ∃ op : Opcode, fieldOp w = op.code ∧ op.mustBeZero w ∧ op.selectorAllowed (fieldFs w) := by
  simp only [decode_ok_iff, ← exists_decodeOp_iff]
  rw [exists_comm]
  simp only [exists_and_left]

theorem Opcode.code_injective : Function.Injective Opcode.code := fun a b h => by
  have hofCode := congrArg Opcode.ofCode h
  rwa [Opcode.ofCode_code, Opcode.ofCode_code, Option.some.injEq] at hofCode

/-- With the opcode known, its own checks decide. -/
theorem exists_decode_iff_of_fieldOp {w : Cmd} {op : Opcode} (hop : fieldOp w = op.code) :
    (∃ i, decode w = .ok i) ↔ op.mustBeZero w ∧ op.selectorAllowed (fieldFs w) := by
  rw [exists_decode_iff]
  constructor
  · rintro ⟨op', hop', hfields⟩
    rwa [Opcode.code_injective (hop.symm.trans hop')]
  · exact fun hfields => ⟨op, hop, hfields⟩

/-- IMM[15:9] is zero, as a number (R307). -/
theorem immHigh_eq_zero_iff (imm : Word) : immHigh imm = 0 ↔ imm.toNat / 2 ^ 9 = 0 := by
  have himm := imm.isLt
  rw [← BitVec.toNat_inj, immHigh, toNat_field]
  change _ = 0 ↔ _
  omega

/-- Settles O4: the checks of each opcode, with the selector allowed. -/
theorem mustBeZeroFieldsAreThese : Obligations.MustBeZeroFieldsAreThese := by
  intro w
  have checks {op : Opcode} (hop : fieldOp w = op.code) (hsel : op.selectorAllowed (fieldFs w)) :
      (∃ i, decode w = .ok i) ↔ op.mustBeZero w :=
    (exists_decode_iff_of_fieldOp hop).trans (and_iff_left hsel)
  refine ⟨fun hop => checks (op := .zero) hop trivial, fun hop => checks (op := .mov) hop trivial, fun hop => ?_,
    fun hop h7 => checks (op := .xfld) hop h7, fun hop h5 h7 => checks (op := .sfld) hop ⟨h5, h7⟩,
    fun hop h5 h7 => checks (op := .sfldi) hop ⟨h5, h7⟩, ?_, fun hop => checks (op := .compact) hop trivial⟩
  · rw [← immHigh_eq_zero_iff]
    exact checks (op := .cvtu64) hop trivial
  · rintro (hop | hop | hop | hop)
    · exact checks (op := .muls) hop trivial
    · exact checks (op := .adds) hop trivial
    · exact checks (op := .divs) hop trivial
    · exact checks (op := .adje) hop trivial

/-! ## The opcode table (R310, R311) -/

/-- The row of an opcode: its code as the pattern, and a mask over OP and the must-be-zero fields of R311. -/
def Opcode.row (op : Opcode) : OpcodeRow where
  opcode := op.code
  pattern := packCmd op.code 0 0 0 0
  mask :=
    match op with
    | .zero => packCmd (.allOnes 8) 0 (.allOnes 2) (.allOnes 4) (.allOnes 16)
    | .mov | .compact => packCmd (.allOnes 8) 0 0 (.allOnes 4) (.allOnes 16)
    | .cvtu64 => packCmd (.allOnes 8) 0 (.allOnes 2) (.allOnes 4) 0xFE00#16
    | .xfld => packCmd (.allOnes 8) (.allOnes 2) 0 0 (.allOnes 16)
    | .sfld => packCmd (.allOnes 8) 0 (.allOnes 2) 0 (.allOnes 16)
    | .sfldi => packCmd (.allOnes 8) 0 (.allOnes 2) 0 0
    | .muls | .adds | .divs | .adje => packCmd (.allOnes 8) 0 0 (.allOnes 4) 0

/-- The table holds one row for each opcode. -/
theorem mem_opcodeTable_iff (row : OpcodeRow) : row ∈ opcodeTable ↔ ∃ op : Opcode, op.row = row := by
  have htable : opcodeTable = [Opcode.zero, .mov, .cvtu64, .xfld, .sfld, .sfldi, .muls, .adds, .divs, .adje, .compact].map
      Opcode.row := by decide
  rw [htable, List.mem_map]
  refine exists_congr fun op => and_iff_right ?_
  cases op <;> decide

theorem packCmd_inj {op op' : BitVec 8} {rd rd' rs rs' : BitVec 2} {fs fs' : BitVec 4} {imm imm' : Word} :
    packCmd op rd rs fs imm = packCmd op' rd' rs' fs' imm' ↔ op = op' ∧ rd = rd' ∧ rs = rs' ∧ fs = fs' ∧ imm = imm' := by
  constructor
  · intro h
    exact ⟨by simpa using congrArg fieldOp h, by simpa using congrArg fieldRd h, by simpa using congrArg fieldRs h,
      by simpa using congrArg fieldFs h, by simpa using congrArg fieldImm h⟩
  · rintro ⟨rfl, rfl, rfl, rfl, rfl⟩
    rfl

theorem fieldOp_and (v w : Cmd) : fieldOp (v &&& w) = fieldOp v &&& fieldOp w := BitVec.extractLsb'_and ..
theorem fieldRd_and (v w : Cmd) : fieldRd (v &&& w) = fieldRd v &&& fieldRd w := BitVec.extractLsb'_and ..
theorem fieldRs_and (v w : Cmd) : fieldRs (v &&& w) = fieldRs v &&& fieldRs w := BitVec.extractLsb'_and ..
theorem fieldFs_and (v w : Cmd) : fieldFs (v &&& w) = fieldFs v &&& fieldFs w := BitVec.extractLsb'_and ..
theorem fieldImm_and (v w : Cmd) : fieldImm (v &&& w) = fieldImm v &&& fieldImm w := BitVec.extractLsb'_and ..

/-- A mask acts on each field by itself. -/
theorem and_packCmd_eq_iff (w : Cmd) (mop op : BitVec 8) (mrd mrs rd rs : BitVec 2) (mfs fs : BitVec 4) (mimm imm : Word) :
    w &&& packCmd mop mrd mrs mfs mimm = packCmd op rd rs fs imm ↔
      fieldOp w &&& mop = op ∧ fieldRd w &&& mrd = rd ∧ fieldRs w &&& mrs = rs ∧ fieldFs w &&& mfs = fs ∧
        fieldImm w &&& mimm = imm := by
  rw [← packCmd_fields (w &&& _), packCmd_inj, fieldOp_and, fieldRd_and, fieldRs_and, fieldFs_and, fieldImm_and,
    fieldOp_packCmd, fieldRd_packCmd, fieldRs_packCmd, fieldFs_packCmd, fieldImm_packCmd]

/-- The mask of CVTU64 on IMM leaves IMM[15:9] (R311). -/
theorem and_immMask_eq_zero_iff (imm : Word) : imm &&& 0xFE00#16 = 0#16 ↔ immHigh imm = 0#7 := by
  have hhigh : immHigh (imm &&& 0xFE00#16) = immHigh imm :=
    BitVec.extractLsb'_and.trans (BitVec.and_allOnes (x := immHigh imm))
  have hlow : (imm &&& 0xFE00#16).extractLsb' 0 9 = 0#9 := BitVec.extractLsb'_and.trans BitVec.and_zero
  rw [← hhigh]
  constructor
  · intro h
    rw [h]
    rfl
  · intro h
    rw [← BitVec.toNat_inj, immHigh, toNat_field, BitVec.toNat_ofNat] at h
    rw [← BitVec.toNat_inj, toNat_field, BitVec.toNat_ofNat] at hlow
    apply BitVec.eq_of_toNat_eq
    rw [BitVec.toNat_ofNat]
    omega

/-- A word agrees with a row exactly when it has the row's opcode and zeros in its must-be-zero fields. -/
theorem row_matches_iff (w : Cmd) (op : Opcode) :
    w &&& op.row.mask = op.row.pattern ↔ fieldOp w = op.code ∧ op.mustBeZero w := by
  cases op <;>
    simp only [Opcode.row, and_packCmd_eq_iff, BitVec.and_allOnes, BitVec.ofNat_eq_ofNat, BitVec.and_zero,
      and_immMask_eq_zero_iff, Opcode.mustBeZero, true_and, and_true]

/-- R310 (c) over the opcodes' numbers, as the rule writes it. -/
theorem selectorAllowed_iff (op : Opcode) (fs : BitVec 4) :
    op.selectorAllowed fs ↔
      (op.code = 0x04 → fs ≠ 7) ∧ (op.code = 0x05 ∨ op.code = 0x06 → fs ≠ 5 ∧ fs ≠ 7) := by
  cases op <;> simp [Opcode.selectorAllowed, Opcode.code]

/-- R310 over the rows of the opcode table. -/
theorem exists_decode_iff_table (w : Cmd) :
    (∃ i, decode w = .ok i) ↔
      ∃ row ∈ opcodeTable, fieldOp w = row.opcode ∧ w &&& row.mask = row.pattern ∧
        (row.opcode = 0x04 → fieldFs w ≠ 7) ∧
        (row.opcode = 0x05 ∨ row.opcode = 0x06 → fieldFs w ≠ 5 ∧ fieldFs w ≠ 7) := by
  rw [exists_decode_iff]
  constructor
  · rintro ⟨op, hop, hzero, hsel⟩
    exact ⟨op.row, (mem_opcodeTable_iff _).mpr ⟨op, rfl⟩, hop, (row_matches_iff w op).mpr ⟨hop, hzero⟩,
      (selectorAllowed_iff op _).mp hsel⟩
  · rintro ⟨row, hrow, hop, hmatch, hsel⟩
    obtain ⟨op, rfl⟩ := (mem_opcodeTable_iff row).mp hrow
    exact ⟨op, hop, ((row_matches_iff w op).mp hmatch).2, (selectorAllowed_iff op _).mpr hsel⟩

/-! ## Illegal words (R310) -/

/-- The opcodes lie between 0x01 and 0x20 (R309). -/
theorem fieldOp_bounds_of_decode {w : Cmd} {i : Instr} (h : decode w = .ok i) :
    0x01 ≤ (fieldOp w).toNat ∧ (fieldOp w).toNat ≤ 0x20 := by
  obtain ⟨op, hop, -⟩ := (decode_ok_iff w i).mp h
  rw [hop]
  cases op <;> decide

/-- A word that no command has faults at the port, and nothing else changes. -/
theorem step_of_illegal {w : Cmd} (hw : ∀ i, decode w ≠ .ok i) {s : Machine.State} {h : Nat} {rest : List Machine.PortOp}
    (hport : s.port = ⟨h, .issue w⟩ :: rest) (hgate : s.faultLatched = false) :
    Machine.step s = .next { s with port := rest, fault := 0x00000001, faultcmd := w } := by
  rw [Machine.step_of_port hport, Machine.performOp_issue]
  rcases Machine.hostIssue_cases w { s with port := rest } with ⟨hlatched, -⟩ | ⟨-, -, hnext⟩ | ⟨-, i, hi, -⟩
  · exact absurd (hlatched.symm.trans hgate) (by decide)
  · exact hnext
  · exact absurd hi (hw i)

/-- Settles O3: the table's rows are the opcodes' checks; a word outside them faults; the named words have no opcode. -/
theorem wordLegalExactlyByTable : Obligations.WordLegalExactlyByTable := by
  intro w
  refine ⟨exists_decode_iff_table w, fun hw _ _ _ => step_of_illegal hw, fun hhigh i hi => ?_, ?_⟩
  · have hbounds := fieldOp_bounds_of_decode hi
    omega
  · rintro (rfl | rfl) i hi <;> exact absurd (fieldOp_bounds_of_decode hi) (by decide)

end Sys2Proof
end

section
/-! SUPPORT. The fields of a packed image as numbers, and images and records in one-to-one correspondence
(spec/30_encoding.md rules R301 to R304). -/

namespace Sys2Proof.Machine

theorem decodeImage_word (P : Image) (i : Fin 8) : (decodeImage P).w[i] = imageWord P i.val := by
  fin_cases i <;> rfl

/-- Settles O10: each field of the record is a bit field of the image. -/
theorem decoderReadsEachField : Obligations.DecoderReadsEachField := by
  intro P d
  have hexp : d.exp.toNat = P.toNat % 256 := by
    rw [← Nat.div_one P.toNat]
    exact toNat_field P 0 8
  refine ⟨?_, toNat_field P 12 4, ?_, ?_, ?_, fun i => ?_⟩
  · rw [Dec.expInt, BitVec.toInt_eq_toNat_cond, hexp]
    split <;> split <;> omega
  · rw [show d.neg = P.getLsbD 11 from rfl, getLsbD_iff_field, decide_eq_true_iff]
  · rw [show d.cmp = P.getLsbD 10 from rfl, getLsbD_iff_field, decide_eq_true_iff]
  · rw [show d.rsv = P.extractLsb' 8 2 ++ P.extractLsb' 16 16 from rfl, toNat_concat, toNat_field, toNat_field]
    rfl
  · rw [decodeImage_word, imageWord, toNat_field, add_comm]

/-- Byte 1 of an image is the control byte of its record (R302). -/
theorem ctrlByte_decodeImage (P : Image) : ctrlByte (decodeImage P) = P.extractLsb' 8 8 := by
  obtain ⟨-, hlen, hneg, hcmp, hrsv, -⟩ := decoderReadsEachField P
  rw [← Bool.toNat_eq_one] at hneg hcmp
  have hn := (decodeImage P).neg.toNat_lt
  have hm := (decodeImage P).cmp.toNat_lt
  have within (k : Nat) : P.toNat / 2 ^ (8 + k) = P.toNat / 2 ^ 8 / 2 ^ k := by rw [pow_add, Nat.div_div_eq_div_mul]
  have hrsv' : (decodeImage P).rsv.toNat / 2 ^ 16 = P.toNat / 2 ^ 8 % 4 := by omega
  apply BitVec.eq_of_toNat_eq
  rw [toNat_ctrlByte, toNat_field, hrsv']
  clear hrsv hrsv'
  rw [within 2] at hcmp
  rw [within 3] at hneg
  rw [within 4] at hlen
  omega

/-- Bytes 2 and 3 of an image are the low part of its record's reserved field (R301). -/
theorem reservedLow_decodeImage (P : Image) : (decodeImage P).rsv.extractLsb' 0 16 = P.extractLsb' 16 16 :=
  BitVec.extractLsb'_append_eq_right

/-- The image of the record that an image holds has the image's own views. -/
theorem imageView_encodeImage_decodeImage (P : Image) {j : Nat} (hj : j ≤ 4) :
    imageView (encodeImage (decodeImage P)) j = imageView P j := by
  cases j with
  | zero =>
    have hlow : imageByte P 3 ++ imageByte P 2 = P.extractLsb' 16 16 :=
      BitVec.extractLsb'_append_extractLsb'_eq_extractLsb' rfl
    rw [imageView_zero_encodeImage, reservedLow_decodeImage, ctrlByte_decodeImage, imageView_zero_eq_bytes, hlow]
    rfl
  | succ j =>
    rw [imageView_succ_encodeImage _ j (by omega), imageView_succ_eq_words]
    exact congrArg₂ _ (decodeImage_word P ⟨2 * j + 1, by omega⟩) (decodeImage_word P ⟨2 * j, by omega⟩)

/-- An image is the image of the record it holds: the fields stand side by side and leave no bit out (R304). -/
@[simp] theorem encodeImage_decodeImage (P : Image) : encodeImage (decodeImage P) = P := by
  rw [← imageOfViews_imageView (encodeImage (decodeImage P)), imageView_encodeImage_decodeImage P (by decide),
    imageView_encodeImage_decodeImage P (by decide), imageView_encodeImage_decodeImage P (by decide),
    imageView_encodeImage_decodeImage P (by decide), imageView_encodeImage_decodeImage P (by decide),
    imageOfViews_imageView]

/-- Settles O11: the fields of an encoded record are those of the record decoded from it, and decoding and encoding undo each
other. -/
theorem imagesAndRecordsCorrespond : Obligations.ImagesAndRecordsCorrespond := by
  refine ⟨fun d => ⟨?_, ?_, ?_, ?_, ?_, ?_, fun i => ?_⟩, encodeImage_decodeImage, decodeImage_encodeImage, ?_⟩
  · exact congrArg Dec.exp (decodeImage_encodeImage d)
  · exact congrArg Dec.len (decodeImage_encodeImage d)
  · exact congrArg Dec.neg (decodeImage_encodeImage d)
  · exact congrArg Dec.cmp (decodeImage_encodeImage d)
  · conv_rhs => rw [← decodeImage_encodeImage d]
    exact BitVec.extractLsb'_append_eq_left.symm
  · rw [← reservedLow_decodeImage, decodeImage_encodeImage]
  · rw [add_comm]
    exact imageWord_encodeImage d i.val i.isLt
  · exact Function.bijective_iff_has_inverse.mpr ⟨encodeImage, encodeImage_decodeImage, decodeImage_encodeImage⟩

end Sys2Proof.Machine
end

section
/-! SUPPORT. A composition that names the read-only field is an illegal command (spec/30_encoding.md rules R308, R310). -/

namespace Sys2Proof.Machine

/-- With no fault latched, an ill-formed command takes ILLEGAL_COMMAND before any operand is checked (R608). -/
theorem exec_of_ill_formed {i : Instr} {s : State} (hgate : s.faultLatched = false) (hwf : i.wf = false) :
    exec i s = .next (s.raiseFault .illegalCommand (encode i)) := by
  rw [exec_eq_execute, State.execute, hgate, hwf]
  rfl

/-- Settles O22: both terms are ill formed, and their words have the selector 5. -/
theorem composingIsNanIsIllegal : Obligations.ComposingIsNanIsIllegal :=
  fun _ _ _ hgate => ⟨exec_of_ill_formed hgate rfl, exec_of_ill_formed hgate rfl⟩

end Sys2Proof.Machine
end

section
/-! SUPPORT. The assembler: the numbers its immediates spell, a line cut into its mnemonic and operands, and the form of each
mnemonic with the range of its immediate (spec/30_encoding.md rules R313, R314). -/

namespace Sys2Proof.Machine

/-! ## Digits -/

/-- The library's digit characters have their own values, -/
theorem digitValue_digitChar {base d : Nat} (hbase : base ≤ 16) (hd : d < base) :
    digitValue base (Nat.digitChar d) = some d := by
  have h16 : d < 16 := hd.trans_le hbase
  interval_cases d <;> exact if_pos hd

/-- and the capital letters have those of the small ones. -/
theorem digitValue_toUpper_digitChar {base d : Nat} (hbase : base ≤ 16) (hd : d < base) :
    digitValue base (Nat.digitChar d).toUpper = some d := by
  have h16 : d < 16 := hd.trans_le hbase
  interval_cases d <;> exact if_pos hd

/-- Reading the digits of a number gives the number back, in any spelling that keeps the digits' values. -/
theorem numberFrom_toDigits {base : Nat} (hbase : 1 < base) {spell : Char → Char}
    (hspell : ∀ d < base, digitValue base (spell (Nat.digitChar d)) = some d) (n : Nat) :
    numberFrom base 0 ((Nat.toDigits base n).map spell) = some n := by
  induction n using Nat.strong_induction_on with
  | _ n ih =>
    by_cases hn : n < base
    · rw [Nat.toDigits_of_lt_base hn]
      simp [numberFrom, hspell n hn]
    · have hlast : n % base < base := Nat.mod_lt n (by omega)
      rw [Nat.toDigits_of_base_le hbase (by omega), List.map_append, numberFrom_append,
        ih (n / base) (Nat.div_lt_self (by omega) hbase)]
      simp [numberFrom, hspell _ hlast, Nat.div_add_mod']

/-- A text of at least one digit spells the number its digits give. -/
theorem numberText_of_ne_nil (base : Nat) {t : List Char} (ht : t ≠ []) : numberText base t = numberFrom base 0 t := by
  cases t with
  | nil => exact absurd rfl ht
  | cons c cs => rfl

theorem numberText_toDigits {base : Nat} (hbase : 1 < base) {spell : Char → Char}
    (hspell : ∀ d < base, digitValue base (spell (Nat.digitChar d)) = some d) (n : Nat) :
    numberText base ((Nat.toDigits base n).map spell) = some n := by
  rw [numberText_of_ne_nil base (by simp [Nat.toDigits_ne_nil]), numberFrom_toDigits hbase hspell]

theorem numberText_decimal (n : Nat) : numberText 10 (Nat.toDigits 10 n) = some n := by
  have h := numberText_toDigits (base := 10) (spell := id) (by decide) (fun _ => digitValue_digitChar (by decide)) n
  rwa [List.map_id] at h

theorem numberText_hexadecimal (n : Nat) : numberText 16 (Nat.toDigits 16 n) = some n := by
  have h := numberText_toDigits (base := 16) (spell := id) (by decide) (fun _ => digitValue_digitChar (by decide)) n
  rwa [List.map_id] at h

theorem numberText_hexadecimal_upper (n : Nat) : numberText 16 ((Nat.toDigits 16 n).map Char.toUpper) = some n :=
  numberText_toDigits (by decide) (fun _ => digitValue_toUpper_digitChar (by decide)) n

/-! ## Immediates -/

theorem immediateText_minus (t : List Char) : immediateText ('-' :: t) = (numberText 10 t).map fun n => -(n : Int) := rfl

theorem immediateText_hexadecimal (t : List Char) :
    immediateText ('0' :: 'x' :: t) = (numberText 16 t).map fun n => (n : Int) := rfl

/-- A text with neither a minus nor an x is a decimal number. -/
theorem immediateText_decimal {t : List Char} (hminus : '-' ∉ t) (hx : 'x' ∉ t) :
    immediateText t = (numberText 10 t).map fun n => (n : Int) := by
  unfold immediateText
  split
  · exact absurd List.mem_cons_self hminus
  · exact absurd (List.mem_cons_of_mem _ List.mem_cons_self) hx
  · rfl

theorem not_mem_toDigits_of_not_isDigit {c : Char} (hc : c.isDigit = false) (n : Nat) : c ∉ Nat.toDigits 10 n := by
  intro hmem
  rw [Nat.isDigit_of_mem_toDigits (by decide) (by decide) hmem] at hc
  cases hc

/-- Each of R313's spellings of an immediate is read as its value. -/
theorem immediateText_spellings (n : Nat) :
    immediateText (Nat.toDigits 10 n) = some (n : Int) ∧
    immediateText ('-' :: Nat.toDigits 10 n) = some (-(n : Int)) ∧
    immediateText ('0' :: 'x' :: Nat.toDigits 16 n) = some (n : Int) ∧
    immediateText ('0' :: 'x' :: (Nat.toDigits 16 n).map Char.toUpper) = some (n : Int) := by
  refine ⟨?_, ?_, ?_, ?_⟩
  · rw [immediateText_decimal (not_mem_toDigits_of_not_isDigit rfl n) (not_mem_toDigits_of_not_isDigit rfl n),
      numberText_decimal]
    rfl
  · rw [immediateText_minus, numberText_decimal]
    rfl
  · rw [immediateText_hexadecimal, numberText_hexadecimal]
    rfl
  · rw [immediateText_hexadecimal, numberText_hexadecimal_upper]
    rfl

/-! ## Lines -/

/-- A text that begins and ends with other characters than blanks is not changed. -/
theorem trimText_of_ends {a b : Char} {t u v : List Char} (ha : a ≠ ' ') (hb : b ≠ ' ') (hfirst : t = a :: u)
    (hlast : t = v ++ [b]) : trimText t = t := by
  have hfront : t.dropWhile (· = ' ') = t := by rw [hfirst]; simp [ha]
  have hback : t.reverse.dropWhile (· = ' ') = t.reverse := by rw [hlast]; simp [hb]
  rw [trimText, hfront, hback, List.reverse_reverse]

/-- What separates a text from the comma before it: nothing or one blank (log entry 13). -/
def IsGap (gap : List Char) : Prop := gap = [] ∨ gap = [' ']

/-- An operand's text: at least one character, none of them a blank or a comma. -/
def IsPlain (t : List Char) : Prop := t ≠ [] ∧ ∀ c ∈ t, c ≠ ' ' ∧ c ≠ ','

theorem IsPlain.not_mem_blank {t : List Char} (h : IsPlain t) : ' ' ∉ t := fun hmem => (h.2 _ hmem).1 rfl
theorem IsPlain.not_mem_comma {t : List Char} (h : IsPlain t) : ',' ∉ t := fun hmem => (h.2 _ hmem).2 rfl

theorem trimText_gap_append {gap t : List Char} (hgap : IsGap gap) (ht : IsPlain t) : trimText (gap ++ t) = t := by
  rcases hgap with rfl | rfl
  · exact trimText_of_not_mem t ht.not_mem_blank
  · exact (trimText_blank_cons t).trans (trimText_of_not_mem t ht.not_mem_blank)

theorem comma_not_mem_gap_append {gap t : List Char} (hgap : IsGap gap) (ht : IsPlain t) : ',' ∉ gap ++ t := by
  rcases hgap with rfl | rfl <;> simpa using ht.not_mem_comma

theorem mapM_argText_cons (t : List Char) (ts : List (List Char)) :
    (t :: ts).mapM argText = (argText t).bind fun a => (ts.mapM argText).map fun as => a :: as := by
  rw [List.mapM_cons]
  cases argText t <;> cases ts.mapM argText <;> rfl

/-- The operands of a line are read one by one, whatever stands between them and their commas. -/
theorem argTexts_splitText_intercalate {gap : List Char} (hgap : IsGap gap) {texts : List (List Char)} (hne : texts ≠ [])
    (hplain : ∀ t ∈ texts, IsPlain t) {before : List Char} (hbefore : IsGap before) :
    argTexts (splitText ',' (before ++ (',' :: gap).intercalate texts)) = texts.mapM argText := by
  induction texts generalizing before with
  | nil => exact absurd rfl hne
  | cons t ts ih =>
    have ht : IsPlain t := hplain t List.mem_cons_self
    have hts : ∀ u ∈ ts, IsPlain u := fun u hu => hplain u (List.mem_cons_of_mem t hu)
    have hcomma := comma_not_mem_gap_append hbefore ht
    cases ts with
    | nil =>
      rw [List.intercalate_singleton, splitText_of_not_mem _ _ hcomma]
      simp [argTexts, trimText_gap_append hbefore ht]
    | cons u us =>
      have hline : before ++ (',' :: gap).intercalate (t :: u :: us) =
          (before ++ t) ++ ',' :: (gap ++ (',' :: gap).intercalate (u :: us)) := by
        simp [List.intercalate_cons_cons]
      rw [hline, splitText_append _ _ _ hcomma, argTexts, trimText_gap_append hbefore ht,
        ih (List.cons_ne_nil u us) hts hgap, mapM_argText_cons t]

/-- The operands of a line end with the end of the last one, so not with a blank. -/
theorem intercalate_ends {sep : List Char} {texts : List (List Char)} (hne : texts ≠ [])
    (hplain : ∀ t ∈ texts, IsPlain t) : ∃ v b, sep.intercalate texts = v ++ [b] ∧ b ≠ ' ' := by
  induction texts with
  | nil => exact absurd rfl hne
  | cons t ts ih =>
    cases ts with
    | nil =>
      have ht : IsPlain t := hplain t List.mem_cons_self
      refine ⟨t.dropLast, t.getLast ht.1, ?_, (ht.2 _ (List.getLast_mem ht.1)).1⟩
      rw [List.intercalate_singleton, List.dropLast_append_getLast]
    | cons u us =>
      obtain ⟨v, b, hv, hb⟩ := ih (List.cons_ne_nil u us) fun x hx => hplain x (List.mem_cons_of_mem t hx)
      exact ⟨t ++ sep ++ v, b, by rw [List.intercalate_cons_cons, hv, List.append_assoc _ v], hb⟩

/-- A line is its mnemonic on its operands. -/
theorem assemble_line {mnemonic gap : List Char} {texts : List (List Char)} (hmne : mnemonic ≠ [])
    (hmnemonic : ∀ c ∈ mnemonic, c ≠ ' ') (hne : texts ≠ []) (hplain : ∀ t ∈ texts, IsPlain t) (hgap : IsGap gap) :
    assemble (String.ofList (mnemonic ++ ' ' :: (',' :: gap).intercalate texts)) =
      (texts.mapM argText).bind (assembleForm (String.ofList mnemonic)) := by
  obtain ⟨a, u, rfl⟩ := List.exists_cons_of_ne_nil hmne
  obtain ⟨v, b, hv, hb⟩ := intercalate_ends (sep := ',' :: gap) hne hplain
  have hnotBlank : ∀ c ∈ a :: u, decide (c ≠ ' ') = true := fun c hc => decide_eq_true (hmnemonic c hc)
  have htrim : trimText (a :: u ++ ' ' :: (',' :: gap).intercalate texts) =
      a :: u ++ ' ' :: (',' :: gap).intercalate texts :=
    trimText_of_ends (v := a :: u ++ ' ' :: v) (hmnemonic a List.mem_cons_self) hb rfl (by rw [hv]; simp)
  have hoperands := argTexts_splitText_intercalate hgap hne hplain (.inr rfl : IsGap [' '])
  rw [assemble, String.toList_ofList, htrim]
  simp only [List.takeWhile_append_of_pos hnotBlank, List.dropWhile_append_of_pos hnotBlank]
  rw [List.takeWhile_cons_of_neg (by decide), List.dropWhile_cons_of_neg (by decide), List.append_nil,
    ← List.singleton_append, hoperands]

/-! ## Ranges of immediates -/

theorem unsigned16_of_mem {v : Int} (h : 0 ≤ v ∧ v ≤ 65535) : ∃ k : Word, (k.toNat : Int) = v ∧ unsigned16 v = some k := by
  refine ⟨BitVec.ofInt 16 v, ?_, if_pos h⟩
  rw [BitVec.toNat_ofInt]
  omega

theorem unsigned16_of_not_mem {v : Int} (h : ¬ (0 ≤ v ∧ v ≤ 65535)) : unsigned16 v = none := if_neg h

theorem signed16_of_mem {v : Int} (h : -32768 ≤ v ∧ v ≤ 32767) : ∃ k : Word, k.toInt = v ∧ signed16 v = some k :=
  ⟨BitVec.ofInt 16 v, BitVec.toInt_ofInt_eq_self (by decide) (by omega) (by omega), if_pos h⟩

theorem signed16_of_not_mem {v : Int} (h : ¬ (-32768 ≤ v ∧ v ≤ 32767)) : signed16 v = none := if_neg h

theorem signed8_of_mem {e : Int} (h : -128 ≤ e ∧ e ≤ 127) : ∃ x : BitVec 8, x.toInt = e ∧ signed8 e = some x :=
  ⟨BitVec.ofInt 8 e, BitVec.toInt_ofInt_eq_self (by decide) (by omega) (by omega), if_pos h⟩

theorem signed8_of_not_mem {e : Int} (h : ¬ (-128 ≤ e ∧ e ≤ 127)) : signed8 e = none := if_neg h

theorem signBit_of_mem {v : Int} (h : v = 0 ∨ v = 1) : ∃ n : Bool, (n = true ↔ v = 1) ∧ signBit v = some n := by
  rcases h with rfl | rfl
  · exact ⟨false, by decide, rfl⟩
  · exact ⟨true, by decide, rfl⟩

theorem signBit_of_not_mem {v : Int} (h : ¬ (v = 0 ∨ v = 1)) : signBit v = none := by
  rw [not_or] at h
  rw [signBit, if_neg h.1, if_neg h.2]

/-! ## Forms -/

theorem assembleForm_sfldi (d : DReg) (f : Field) (v : Int) :
    assembleForm "SFLDI" [.reg d, .fld f, .imm v] = (unsigned16 v).map (.sfldi d f) := rfl

theorem assembleForm_muls (d s : DReg) (v : Int) :
    assembleForm "MULS" [.reg d, .reg s, .imm v] = (unsigned16 v).map (.muls d s) := rfl

theorem assembleForm_adds (d s : DReg) (v : Int) :
    assembleForm "ADDS" [.reg d, .reg s, .imm v] = (unsigned16 v).map (.adds d s) := rfl

theorem assembleForm_divs (d s : DReg) (v : Int) :
    assembleForm "DIVS" [.reg d, .reg s, .imm v] = (unsigned16 v).map (.divs d s) := rfl

theorem assembleForm_adje (d s : DReg) (k : Int) :
    assembleForm "ADJE" [.reg d, .reg s, .imm k] = (signed16 k).map (.adje d s) := rfl

theorem assembleForm_cvtu64 (d : DReg) (e n : Int) :
    assembleForm "CVTU64" [.reg d, .imm e, .imm n] =
      (signed8 e).bind fun e => (signBit n).map fun n => .cvtu64 d e n := rfl

/-- CVTU64 has a command only when both its immediates are in range. -/
theorem assembleForm_cvtu64_of_not_mem (d : DReg) {e v : Int} (h : ¬ (-128 ≤ e ∧ e ≤ 127 ∧ (v = 0 ∨ v = 1))) :
    assembleForm "CVTU64" [.reg d, .imm e, .imm v] = none := by
  rw [assembleForm_cvtu64]
  by_cases he : -128 ≤ e ∧ e ≤ 127
  · rw [signBit_of_not_mem fun hv => h ⟨he.1, he.2, hv⟩]
    cases signed8 e <;> rfl
  · rw [signed8_of_not_mem he, Option.bind_none]

/-- Settles O8: the spellings of an operand, the cutting of a line, and each form with the range of its immediate. -/
theorem assemblerReadsTheFormsInRange : Obligations.AssemblerReadsTheFormsInRange := by
  refine ⟨immediateText_spellings, fun _ => rfl, fun r => by cases r <;> rfl, fun i => by fin_cases i <;> rfl, rfl, rfl, rfl,
    rfl, rfl, rfl, rfl, ?_, fun d s f v e => ⟨rfl, rfl, rfl, rfl, rfl, ?_, ?_, ?_, ?_, ?_,
      assembleForm_cvtu64_of_not_mem d⟩⟩
  · rintro mnemonic texts sep hmne hmnemonic hne hplain (rfl | rfl)
    · exact assemble_line hmne hmnemonic hne hplain (.inl rfl)
    · exact assemble_line hmne hmnemonic hne hplain (.inr rfl)
  · intro hv
    obtain ⟨k, hk, hread⟩ := unsigned16_of_mem hv
    refine ⟨k, hk, ?_, ?_, ?_, ?_⟩
    · rw [assembleForm_sfldi, hread, Option.map_some]
    · rw [assembleForm_muls, hread, Option.map_some]
    · rw [assembleForm_adds, hread, Option.map_some]
    · rw [assembleForm_divs, hread, Option.map_some]
  · intro hv
    have hread := unsigned16_of_not_mem hv
    refine ⟨?_, ?_, ?_, ?_⟩
    · rw [assembleForm_sfldi, hread, Option.map_none]
    · rw [assembleForm_muls, hread, Option.map_none]
    · rw [assembleForm_adds, hread, Option.map_none]
    · rw [assembleForm_divs, hread, Option.map_none]
  · intro hv
    obtain ⟨k, hk, hread⟩ := signed16_of_mem hv
    exact ⟨k, hk, by rw [assembleForm_adje, hread, Option.map_some]⟩
  · intro hv
    rw [assembleForm_adje, signed16_of_not_mem hv, Option.map_none]
  · rintro ⟨hlow, hhigh, hv⟩
    obtain ⟨x, hx, hexp⟩ := signed8_of_mem ⟨hlow, hhigh⟩
    obtain ⟨n, hn, hsign⟩ := signBit_of_mem hv
    exact ⟨x, n, hx, hn, by rw [assembleForm_cvtu64, hexp, hsign, Option.bind_some, Option.map_some]⟩

/-- Settles O9: each pseudo-instruction has its expansion's command, whose fixed immediate is in range. -/
theorem pseudoInstructionsExpand : Obligations.PseudoInstructionsExpand := by
  intro d v
  have h10 : unsigned16 10 = some 10 := rfl
  have h1 : unsigned16 1 = some 1 := rfl
  have hup : signed16 1 = some 1 := rfl
  have hdown : signed16 (-1) = some 0xFFFF := rfl
  refine ⟨?_, ?_, rfl, ?_, ?_, ?_, rfl⟩
  · rw [assembleForm_muls, h10]
    rfl
  · rw [assembleForm_divs, h10]
    rfl
  · rw [assembleForm_adje, hup]
    rfl
  · rw [assembleForm_adje, hdown]
    rfl
  · rw [assembleForm_sfldi, h1]
    rfl

end Sys2Proof.Machine
end

section
/-! SUPPORT. Composing a field of a packed image, bit by bit (spec/30_encoding.md rules R301, R302, spec/40_storage.md rules
R402, R430). -/

namespace Sys2Proof.Machine

/-! ## The bits of a record's image -/

/-- The bits of an image below its words: the exponent, the control byte's fields and the low reserved field (R301, R302). -/
theorem getLsbD_encodeImage_header (d : Dec) {k : Nat} (hk : k < 32) :
    (encodeImage d).getLsbD k =
      if k < 8 then d.exp.getLsbD k
      else if k < 10 then d.rsv.getLsbD (16 + (k - 8))
      else if k = 10 then d.cmp
      else if k = 11 then d.neg
      else if k < 16 then d.len.getLsbD (k - 12)
      else d.rsv.getLsbD (k - 16) := by
  have hview : (imageView (encodeImage d) 0).getLsbD k = (encodeImage d).getLsbD k := by
    simp [imageView, hk]
  rw [← hview, imageView_zero_encodeImage]
  simp only [ctrlByte, BitVec.getLsbD_append, BitVec.getLsbD_extractLsb', BitVec.getLsbD_ofBool]
  grind

/-- The bits of an image in its words (R301). -/
theorem getLsbD_encodeImage_word (d : Dec) (i : Fin 8) {j : Nat} (hj : j < 16) :
    (encodeImage d).getLsbD (32 + 16 * i.val + j) = d.w[i].getLsbD j := by
  rw [Fin.getElem_fin, ← imageWord_encodeImage d i.val i.isLt]
  simp [imageWord, hj]

/-- A bit of an image lies below the words or in one of them. -/
theorem lt_words_or_in_word {k : Nat} (hk : k < 160) :
    k < 32 ∨ ∃ (i : Fin 8) (j : Nat), j < 16 ∧ k = 32 + 16 * i.val + j := by
  by_cases h : k < 32
  · exact .inl h
  · exact .inr ⟨⟨(k - 32) / 16, by omega⟩, (k - 32) % 16, by omega, by dsimp only; omega⟩

/-! ## The bits of a composed image -/

/-- A field of one run of bits: inside the run the value's bits, outside it the image's own. -/
theorem composedBit_of_one_slot {f : Field} {sl : FieldSlot} (hf : fieldSlots f = [sl]) (P : Image) (v : BitVec 32)
    (k : Nat) :
    composedBit P f v k =
      if sl.imageLow ≤ k ∧ k < sl.imageLow + sl.width then v.getLsbD (sl.fieldLow + (k - sl.imageLow))
      else P.getLsbD k := by
  rw [composedBit, hf, List.find?_singleton]
  by_cases hin : sl.imageLow ≤ k ∧ k < sl.imageLow + sl.width
  · rw [if_pos hin, if_pos (decide_eq_true hin)]
  · rw [if_neg hin, if_neg (by simpa using hin)]

/-- Where a field does not lie, the composed image has the image's own bit. -/
theorem composedBit_of_outside {f : Field} {k : Nat}
    (hf : ∀ sl ∈ fieldSlots f, k < sl.imageLow ∨ sl.imageLow + sl.width ≤ k) (P : Image) (v : BitVec 32) :
    composedBit P f v k = P.getLsbD k := by
  have hnone : (fieldSlots f).find? (fun sl => sl.imageLow ≤ k ∧ k < sl.imageLow + sl.width) = none := by
    rw [List.find?_eq_none]
    intro sl hsl
    rw [decide_eq_true_iff]
    have hapart := hf sl hsl
    omega
  rw [composedBit, hnone]

/-- Only the word selectors lie in the words (R301, R302). -/
theorem slots_below_words {f : Field} (hf : ∀ l, f ≠ .w l) : ∀ sl ∈ fieldSlots f, sl.imageLow + sl.width ≤ 32 := by
  cases f with
  | w l => exact absurd rfl (hf l)
  | _ => decide

/-- In a word, the composed image takes the value's bits exactly when that word is the field. -/
theorem composedBit_in_word (P : Image) (f : Field) (v : BitVec 32) (i : Fin 8) {j : Nat} (hj : j < 16) :
    composedBit P f v (32 + 16 * i.val + j) =
      if f = .w i then v.getLsbD j else P.getLsbD (32 + 16 * i.val + j) := by
  split
  · next h =>
    subst h
    rw [composedBit_of_one_slot rfl, if_pos (by dsimp only; omega)]
    congr 1
    dsimp only
    omega
  · next h =>
    apply composedBit_of_outside
    cases f with
    | w l =>
      have hl : l.val ≠ i.val := fun e => h (congrArg Field.w (Fin.ext e))
      simp only [fieldSlots, List.mem_singleton, forall_eq]
      omega
    | _ => exact fun sl hsl => .inr ((slots_below_words (by simp) sl hsl).trans (by omega))

/-! ## A record with a field replaced -/

/-- Only a word selector changes a word, and only its own (R430). -/
theorem setField_word (d : Dec) (f : Field) (v : BitVec 32) (i : Fin 8) :
    (setField d f v).w[i] = if f = .w i then v.extractLsb' 0 16 else d.w[i] := by
  cases f with
  | w l => simp [setField, Vector.getElem_set, Fin.ext_iff]
  | _ => rfl

/-- In the words, the image of the record with a field replaced is the composed image. -/
theorem getLsbD_encodeImage_setField_word (d : Dec) (f : Field) (v : BitVec 32) (i : Fin 8) {j : Nat} (hj : j < 16) :
    (encodeImage (setField d f v)).getLsbD (32 + 16 * i.val + j) =
      composedBit (encodeImage d) f v (32 + 16 * i.val + j) := by
  rw [getLsbD_encodeImage_word _ _ hj, setField_word, composedBit_in_word _ _ _ _ hj, getLsbD_encodeImage_word _ _ hj]
  split
  · simp [hj]
  · rfl

/-- Below the words, the image of the record with a field replaced is the composed image. -/
theorem getLsbD_encodeImage_setField_header (d : Dec) {f : Field} (hf : f ≠ .isNaN) (v : BitVec 32) {k : Nat}
    (hk : k < 32) : (encodeImage (setField d f v)).getLsbD k = composedBit (encodeImage d) f v k := by
  cases f with
  | isNaN => exact absurd rfl hf
  | w i =>
    rw [composedBit_of_outside, getLsbD_encodeImage_header _ hk, getLsbD_encodeImage_header _ hk]
    · rfl
    · simp only [fieldSlots, List.mem_singleton, forall_eq]
      omega
  | rsv =>
    -- The one field in two runs of bits.
    simp only [composedBit, fieldSlots, List.find?, getLsbD_encodeImage_header _ hk, setField, BitVec.getLsbD_extractLsb']
    grind
  | exp | len | neg | cmp | ctrl =>
    rw [composedBit_of_one_slot rfl, getLsbD_encodeImage_header _ hk, getLsbD_encodeImage_header _ hk]
    simp only [setField, BitVec.getLsbD_append, BitVec.getLsbD_extractLsb']
    grind

/-- Replacing a field of the record composes the record's image: the field's own bits are the value's, and no other bit
changes (R402, R430). -/
theorem getLsbD_encodeImage_setField (d : Dec) {f : Field} (hf : f ≠ .isNaN) (v : BitVec 32) {k : Nat} (hk : k < 160) :
    (encodeImage (setField d f v)).getLsbD k = composedBit (encodeImage d) f v k := by
  rcases lt_words_or_in_word hk with hheader | ⟨i, j, hj, rfl⟩
  · exact getLsbD_encodeImage_setField_header d hf v hheader
  · exact getLsbD_encodeImage_setField_word d f v i hj

/-- Settles O16: the law for a record, at the record the image holds. -/
theorem composingAFieldChangesOnlyIt : Obligations.ComposingAFieldChangesOnlyIt := by
  intro P f v k hf hk
  rw [getLsbD_encodeImage_setField _ hf v hk, encodeImage_decodeImage]

end Sys2Proof.Machine
end

section
/-! SUPPORT. The packed-storage commands: the next state of each (spec/40_storage.md). -/

namespace Sys2Proof.Machine

/-! ## The commands when they run -/

/-- A legal command that counts no words and whose operands are valid performs its rule behind an open gate (R606, R607). -/
theorem exec_of_uncounted {i : Instr} {s : State} (hgate : s.faultLatched = false) (hwf : i.wf = true)
    (hcounted : countedOperand i = none) (hvalid : ∀ x ∈ operandsOf i, s.sourceValid x = true) :
    exec i s = .next (commandRule i s) :=
  exec_ready ⟨hgate, hwf, hvalid, by simp [hcounted]⟩

/-- The image of canonical zero is all zeros (R411). -/
theorem encodeImage_canonicalZero : encodeImage Dec.canonicalZero = 0 := by decide

/-- Settles O17: ZERO reads no register, and its record's image is zero. -/
theorem zeroWritesTheZeroImage : Obligations.ZeroWritesTheZeroImage := by
  intro rd s hgate
  rw [exec_of_uncounted hgate rfl rfl (by simp [operandsOf]), ← encodeImage_canonicalZero]
  rfl

/-- Settles O18: the rule of MOV writes the image itself. -/
theorem movCopiesTheImage : Obligations.MovCopiesTheImage := by
  intro rd rs s hgate hvalid
  exact exec_of_uncounted hgate rfl rfl (by simpa [operandsOf, State.sourceValid] using hvalid)

/-! ## Fields as numbers -/

/-- The NaN test on the fields cut out of the image (R11). -/
theorem isNaN_decodeImage (P : Image) :
    (decodeImage P).isNaN = true ↔ P.toNat / 2 ^ 12 % 16 = 0 ∧ P.toNat / 2 ^ 11 % 2 = 1 := by
  obtain ⟨-, hlen, hneg, -⟩ := decoderReadsEachField P
  rw [← hlen, ← hneg, Dec.isNaN, decide_eq_true_iff, ← BitVec.toNat_inj]
  rfl

/-- XFLD with a valid source behind an open gate: its next state has the field's value in FOUT (R425). -/
theorem exec_xfld {rs : DReg} {f : Field} {s : State} (hgate : s.faultLatched = false) (hvalid : s.isValid rs = true) :
    exec (.xfld rs f) s =
      .next { s with fout := fieldValue (decodeImage (s.d.get rs)) f, foutWritten := true, status := 0 } :=
  exec_of_uncounted hgate rfl rfl (by simpa [operandsOf, State.sourceValid] using hvalid)

/-- Settles O20: the decoder's fields as numbers, the exponent extended with its sign and the others with zeros. -/
theorem xfldExtractsTheField : Obligations.XfldExtractsTheField := by
  intro rs f s hgate hvalid
  refine ⟨_, exec_xfld hgate hvalid, ?_⟩
  obtain ⟨hexp, hlen, -, -, hrsv, hword⟩ := decoderReadsEachField (s.d.get rs)
  cases f with
  | exp => exact (BitVec.toInt_signExtend_of_le (by decide)).trans hexp
  | len => exact (BitVec.toNat_setWidth_of_le (by decide)).trans hlen
  | neg => exact (BitVec.toNat_setWidth_of_le (by decide)).trans (toNat_ofBool_bit _ 11)
  | cmp => exact (BitVec.toNat_setWidth_of_le (by decide)).trans (toNat_ofBool_bit _ 10)
  | rsv => exact (BitVec.toNat_setWidth_of_le (by decide)).trans hrsv
  | isNaN =>
    simp only [fieldValue, isNaN_decodeImage]
    split <;> rfl
  | ctrl =>
    refine (BitVec.toNat_setWidth_of_le (by decide)).trans ?_
    rw [ctrlByte_decodeImage]
    exact toNat_field _ 8 8
  | w i =>
    refine (BitVec.toNat_setWidth_of_le (by decide)).trans ?_
    rw [hword i, add_comm]

/-- Settles O21: both commands are legal for a writable field, and the image of the record they write is the composed one. -/
theorem sfldAndSfldiComposeTheField : Obligations.SfldAndSfldiComposeTheField := by
  intro rd f s hgate hf hvalid
  have hwf : f.writable = true := f.writable_eq_true_iff.mpr hf
  have composed (v : BitVec 32) (k : Nat) (hk : k < 160) :
      (encodeImage (setField (s.dec rd) f v)).getLsbD k = composedBit (s.d.get rd) f v k :=
    composingAFieldChangesOnlyIt (s.d.get rd) f v k hf hk
  refine ⟨fun harg => ⟨_, ?_, composed (s.arg.extractLsb' 0 32)⟩, fun imm => ⟨_, ?_, composed (imm.setWidth 32)⟩⟩
  · exact exec_of_uncounted hgate hwf rfl (by simp [operandsOf, State.sourceValid, hvalid, harg])
  · exact exec_of_uncounted hgate hwf rfl (by simp [operandsOf, State.sourceValid, hvalid])

/-! ## The record of a 64-bit magnitude -/

/-- The lowest words of an integer are the first of its words (R13). -/
theorem take_wordsOf {m n : Nat} (h : m ≤ n) (v : Nat) : (wordsOf n v).take m = wordsOf m v := by
  induction m generalizing n v with
  | zero => rfl
  | succ m ih =>
    obtain ⟨n, rfl⟩ : ∃ n', n = n' + 1 := ⟨n - 1, by omega⟩
    rw [wordsOf, wordsOf, List.take_succ_cons, ih (by omega)]

/-- Word i of the record is the i-th 16 bits of the magnitude, and so 0 from word 4 on (R417). -/
theorem decOfMagnitude_word (a : BitVec 64) (e : BitVec 8) (n : Bool) (i : Fin 8) :
    (decOfMagnitude a e n).w[i] = a.extractLsb' (16 * i.val) 16 := by
  obtain ⟨i, hi⟩ := i
  by_cases hlow : i < 4
  · interval_cases i <;> rfl
  · obtain ⟨j, rfl⟩ := Nat.exists_eq_add_of_le (not_lt.mp hlow)
    have hj : j < 4 := by omega
    have hbeyond : a.extractLsb' (16 * (4 + j)) 16 = 0#16 := by
      ext k hk
      rw [BitVec.getElem_extractLsb', BitVec.getElem_zero]
      exact BitVec.getLsbD_of_ge _ _ (by omega)
    rw [hbeyond]
    interval_cases j <;> rfl

/-- The record's words are the magnitude's eight lowest as an integer. -/
theorem decOfMagnitude_words (a : BitVec 64) (e : BitVec 8) (n : Bool) :
    (decOfMagnitude a e n).w.toList = wordsOf 8 a.toNat := by
  refine List.ext_getElem (Vector.length_toList.trans (length_wordsOf 8 a.toNat).symm) fun i hi hi' => ?_
  have h8 : i < 8 := by rwa [length_wordsOf] at hi'
  rw [← List.getD_eq_getElem _ 0 hi', getD_wordsOf, if_pos h8, Vector.getElem_toList, ← Nat.shiftRight_eq_div_pow]
  exact decOfMagnitude_word a e n ⟨i, h8⟩

/-- The record's length is the least number of words of the magnitude, and at most 4 (R417, R10). -/
theorem decOfMagnitude_len (a : BitVec 64) (e : BitVec 8) (n : Bool) :
    (decOfMagnitude a e n).len.toNat = nwords a.toNat ∧ nwords a.toNat ≤ 4 := by
  have ha : a.toNat < 2 ^ (16 * 4) := a.isLt
  have h4 : nwords a.toNat ≤ 4 := (nwords_le_iff (ha.trans (by decide)) 4).mpr ha
  refine ⟨?_, h4⟩
  rw [decOfMagnitude, BitVec.toNat_ofNat]
  omega

/-- The record stands for the magnitude: its length leaves out only zero words. -/
theorem decOfMagnitude_mag (a : BitVec 64) (e : BitVec 8) (n : Bool) : (decOfMagnitude a e n).mag = a.toNat := by
  have ha : a.toNat < 2 ^ 128 := a.isLt.trans (by decide)
  obtain ⟨hlen, h4⟩ := decOfMagnitude_len a e n
  rw [Dec.mag, Dec.active, hlen, decOfMagnitude_words, take_wordsOf (by omega), wordsValue_wordsOf, wordBase_pow,
    Nat.mod_eq_of_lt ((nwords_le_iff ha _).mp le_rfl)]

/-- Settles O19: the fields of the record CVTU64 builds, and the least length that holds ARG. -/
theorem cvtuBuildsFromArg : Obligations.CvtuBuildsFromArg := by
  intro rd e n s hgate hvalid
  have harg : s.arg.toNat < 2 ^ 128 := s.arg.isLt.trans (by decide)
  obtain ⟨hlen, h4⟩ := decOfMagnitude_len s.arg e n
  refine ⟨decOfMagnitude s.arg e n, ?_, rfl, rfl, rfl, rfl, fun i => ?_, decOfMagnitude_mag s.arg e n,
    hlen.trans_le h4, fun L hL => ?_⟩
  · exact exec_of_uncounted hgate rfl rfl (by simpa [operandsOf, State.sourceValid] using hvalid)
  · rw [decOfMagnitude_word, toNat_field]
  · rw [hlen]
    exact (nwords_le_iff harg L).mpr hL

end Sys2Proof.Machine
end

section
/-! SUPPORT. The arithmetic commands as integers: MULS, ADDS and DIVS in closed form, their laws on magnitudes, the division
by ten down to length 0, and the exponent step of ADJE (spec/41_arithmetic.md). -/

namespace Sys2Proof.Machine

/-! ## Commands that count words, when they are ready (R606, R607) -/

/-- A legal command with one operand register, whose words it counts, is ready when that register is. -/
theorem ready_of_counted {i : Instr} {rs : DReg} {s : State} (hwf : i.wf = true) (hops : operandsOf i = [.d rs])
    (hcount : countedOperand i = some rs) (hgate : s.faultLatched = false) (hvalid : s.isValid rs = true)
    (h8 : (s.dec rs).len.toNat ≤ 8) : Ready i s :=
  ⟨hgate, hwf, by simpa [hops, State.sourceValid] using hvalid, by simpa [hcount] using h8⟩

/-- The word count of a ready command is at most 8. -/
theorem length_of_ready {i : Instr} {rs : DReg} {s : State} (hready : Ready i s) (hcount : countedOperand i = some rs) :
    (s.dec rs).len.toNat ≤ 8 := by
  obtain ⟨-, -, -, hlen⟩ := hready
  exact hlen rs hcount

/-! ## Results as integers written back by withMag -/

/-- A magnitude fits the words it is read from (R9). -/
theorem mag_lt (d : Dec) (h8 : d.len.toNat ≤ 8) : d.mag < 2 ^ (16 * d.len.toNat) := by
  rw [← wordBase_pow, ← length_active d h8]
  exact wordsValue_lt d.active

theorem toNat_pos_of_ne_zero {w : Word} (hw : w ≠ 0) : 0 < w.toNat :=
  Nat.pos_of_ne_zero fun h0 => hw (BitVec.eq_of_toNat_eq h0)

theorem mag_lt_two_pow_128 (d : Dec) (h8 : d.len.toNat ≤ 8) : d.mag < 2 ^ 128 :=
  (mag_lt d h8).trans_le (Nat.pow_le_pow_right (by decide) (by omega))

/-- Writing a list of words is writing its integer: a result is a withMag with the compact flag cleared (R13, R450). -/
theorem withResult_eq_withMag (d : Dec) (p : List Word) (L : Nat) :
    d.withResult p L = { d.withMag (wordsValue p) p.length L with cmp := false } := by
  rw [Dec.withMag, wordsOf_wordsValue]
  rfl

/-- An integer that its length holds is read back as the magnitude (R9, R13). -/
theorem mag_withMag (d : Dec) {v n L : Nat} (hL : L ≤ n) (hn : n ≤ 8) (hv : v < 2 ^ (16 * L)) :
    Dec.mag { d.withMag v n L with cmp := false } = v := by
  have hlen : (wordsOf n v).length = n := length_wordsOf n v
  refine (mag_withResult d (wordsOf n v) L (by rwa [hlen]) (by rwa [hlen])).trans ?_
  rw [take_wordsOf hL, wordsValue_wordsOf, wordBase_pow, Nat.mod_eq_of_lt hv]

/-! ## MULS and ADDS: one integer with at most one more word (R452, R454) -/

/-- The length of a result in n words with room for a carry: one more where n words do not hold it. -/
def carriedLength (n v : Nat) : Nat := if v < 2 ^ (16 * n) then n else n + 1

/-- The record with the integer v as its mantissa, or overflow: what MULS and ADDS come to, by `mulScalar_eq_withInteger` and
`addScalar_eq_withInteger`. -/
def Dec.withInteger (d : Dec) (v : Nat) : Except CalcError Dec :=
  if 2 ^ 128 ≤ v then .error .overflow
  else .ok { d.withMag v (carriedLength d.len.toNat v) (carriedLength d.len.toNat v) with cmp := false }

/-- An integer below 2^128 that n + 1 words hold is held by its carried length, which is at most 8. -/
theorem carriedLength_bounds {n v : Nat} (hn : n ≤ 8) (hv : v < 2 ^ (16 * (n + 1))) (hfit : v < 2 ^ 128) :
    carriedLength n v ≤ 8 ∧ v < 2 ^ (16 * carriedLength n v) := by
  unfold carriedLength
  split
  · next h => exact ⟨hn, h⟩
  · next h =>
    have hne : n ≠ 8 := by
      rintro rfl
      exact h hfit
    exact ⟨by omega, hv⟩

/-- The end of MULS and of ADDS writes the words and the carry as one integer: without a carry the words hold it, and with
one they do not (R451, R453). -/
theorem withCarry_eq_withInteger {d : Dec} {p : List Word} {c : Word} (hp : p.length = d.len.toNat)
    (h8 : d.len.toNat ≤ 8) : d.withCarry p c = d.withInteger (wordsValue p + wordBase ^ p.length * c.toNat) := by
  have hwords : wordsValue p < 2 ^ (16 * d.len.toNat) := by
    rw [← wordBase_pow, ← hp]
    exact wordsValue_lt p
  rcases withCarry_cases d p c with ⟨rfl, h⟩ | ⟨hc, hn, h⟩ | ⟨hc, hn, h⟩
  case inl =>
    have hfit : wordsValue p < 2 ^ 128 := hwords.trans_le (Nat.pow_le_pow_right (by decide) (by omega))
    have hlen : carriedLength d.len.toNat (wordsValue p) = d.len.toNat := if_pos hwords
    have hzero : wordsValue p + wordBase ^ p.length * (0 : Word).toNat = wordsValue p := Nat.add_zero _
    rw [h, hzero, Dec.withInteger, if_neg (not_le.mpr hfit), hlen, withResult_eq_withMag, hp]
  all_goals
    have hbig : 2 ^ (16 * d.len.toNat) ≤ wordBase ^ p.length * c.toNat := by
      rw [hp, wordBase_pow]
      exact Nat.le_mul_of_pos_right _ (toNat_pos_of_ne_zero hc)
  case inr.inl =>
    rw [hn] at hbig
    rw [h, Dec.withInteger, if_pos (hbig.trans (Nat.le_add_left ..))]
  case inr.inr =>
    have hvalue : wordsValue (p ++ [c]) = wordsValue p + wordBase ^ p.length * c.toNat := by
      simp [wordsValue_append, wordsValue]
    have hlength : (p ++ [c]).length = d.len.toNat + 1 := by simp [hp]
    have hfit : wordsValue (p ++ [c]) < 2 ^ 128 := by
      refine (wordsValue_lt (p ++ [c])).trans_le ?_
      rw [hlength, wordBase_pow]
      exact Nat.pow_le_pow_right (by decide) (by omega)
    have hlen : carriedLength d.len.toNat (wordsValue (p ++ [c])) = d.len.toNat + 1 := if_neg (by omega)
    rw [h, ← hvalue, Dec.withInteger, if_neg (not_le.mpr hfit), hlen, withResult_eq_withMag, hlength]

/-- MULS writes the integer product (R452). -/
theorem mulScalar_eq_withInteger {d : Dec} (h8 : d.len.toNat ≤ 8) (v : Word) :
    d.mulScalar v = d.withInteger (d.mag * v.toNat) := by
  have hlen : (mulChain v d.active 0).1.length = d.active.length := length_mulChain ..
  rw [mulScalar_eq_withCarry, withCarry_eq_withInteger (hlen.trans (length_active d h8)) h8, hlen, value_mulChain]
  rfl

/-- ADDS writes the integer sum (R454). -/
theorem addScalar_eq_withInteger {d : Dec} (h8 : d.len.toNat ≤ 8) (v : Word) :
    d.addScalar v = d.withInteger (d.mag + v.toNat) := by
  have hlen : (addChain d.active v).1.length = d.active.length := length_addChain ..
  rw [addScalar_eq_withCarry, withCarry_eq_withInteger (hlen.trans (length_active d h8)) h8, hlen, value_addChain]
  rfl

/-- The product and the sum need at most one more word. -/
theorem mul_scalar_lt {n m : Nat} (hm : m < 2 ^ (16 * n)) (v : Word) : m * v.toNat < 2 ^ (16 * (n + 1)) := by
  rw [Nat.mul_succ, pow_add]
  exact Nat.mul_lt_mul'' hm v.isLt

theorem add_scalar_lt {n m : Nat} (hm : m < 2 ^ (16 * n)) (v : Word) : m + v.toNat < 2 ^ (16 * (n + 1)) := by
  have hv := v.isLt
  have hpow : 1 ≤ 2 ^ (16 * n) := Nat.one_le_two_pow
  rw [Nat.mul_succ, pow_add]
  omega

/-- The next state of a command that writes an integer, whole. -/
theorem finish_withInteger (s : State) (rd : DReg) (d : Dec) (v : Nat) :
    s.finish rd (d.withInteger v) =
      if 2 ^ 128 ≤ v then { s with status := 3 }
      else { s with
        d := s.d.set rd
          (encodeImage { d.withMag v (carriedLength d.len.toNat v) (carriedLength d.len.toNat v) with cmp := false })
        valid := s.valid.set rd true
        status := 0 } := by
  unfold Dec.withInteger
  split <;> rfl

theorem exec_muls_withInteger {rd rs : DReg} {v : Word} {s : State} (hready : Ready (.muls rd rs v) s) :
    exec (.muls rd rs v) s = .next (s.finish rd ((s.dec rs).withInteger ((s.dec rs).mag * v.toNat))) := by
  rw [exec_ready hready, commandRule, mulScalar_eq_withInteger (length_of_ready hready rfl)]

theorem exec_adds_withInteger {rd rs : DReg} {v : Word} {s : State} (hready : Ready (.adds rd rs v) s) :
    exec (.adds rd rs v) s = .next (s.finish rd ((s.dec rs).withInteger ((s.dec rs).mag + v.toNat))) := by
  rw [exec_ready hready, commandRule, addScalar_eq_withInteger (length_of_ready hready rfl)]

/-- Settles O23: the rule writes the integer product, which needs at most one word more than the operand. -/
theorem mulsClosedForm : Obligations.MulsClosedForm := by
  intro rd rs imm s hready
  have h8 : (s.dec rs).len.toNat ≤ 8 := length_of_ready hready rfl
  have hv := mul_scalar_lt (mag_lt (s.dec rs) h8) imm
  refine ⟨?_, fun hn => ?_, carriedLength_bounds h8 hv⟩
  · exact (exec_muls_withInteger hready).trans (congrArg _ (finish_withInteger s rd (s.dec rs) _))
  · exact hv.trans_le (Nat.pow_le_pow_right (by decide) (by omega))

/-- Settles O24: as MULS, with the integer sum. -/
theorem addsClosedForm : Obligations.AddsClosedForm := by
  intro rd rs imm s hready
  have h8 : (s.dec rs).len.toNat ≤ 8 := length_of_ready hready rfl
  refine ⟨?_, carriedLength_bounds h8 (add_scalar_lt (mag_lt (s.dec rs) h8) imm)⟩
  exact (exec_adds_withInteger hready).trans (congrArg _ (finish_withInteger s rd (s.dec rs) _))

/-! ## DIVS: the integer quotient with the least length (R456) -/

/-- DIVS by a divisor other than 0 writes the integer quotient over the old words, and gives the integer remainder. -/
theorem divScalar_of_ne_zero {d : Dec} (h8 : d.len.toNat ≤ 8) {v : Word} (hv : v ≠ 0) :
    d.divScalar v =
      .ok ({ d.withMag (d.mag / v.toNat) d.len.toNat (nwords (d.mag / v.toNat)) with cmp := false },
        BitVec.ofNat 16 (d.mag % v.toNat)) := by
  obtain ⟨hzero, -⟩ | ⟨-, h⟩ := divScalar_cases d v
  · exact absurd hzero hv
  · obtain ⟨hquot, hrem⟩ := value_divChain v.toNat (toNat_pos_of_ne_zero hv) d.active
    rw [← Dec.mag] at hquot hrem
    have hlen : (divChain v.toNat d.active).1.length = d.len.toNat :=
      (length_divChain ..).trans (length_active d h8)
    have hlt : d.mag / v.toNat < 2 ^ (16 * d.len.toNat) := (Nat.div_le_self ..).trans_lt (mag_lt d h8)
    have htrim : trimmedLength (divChain v.toNat d.active).1 = nwords (d.mag / v.toNat) := by
      rw [trimmedLength_eq_digitCount, hlen, hquot]
      refine digitCount_fuel _ mantWords _ ?_ ?_ <;> rw [wordBase_pow]
      · exact hlt
      · exact hlt.trans_le (Nat.pow_le_pow_right (by decide) (Nat.mul_le_mul_left 16 h8))
    rw [h, withResult_eq_withMag, htrim, hlen, hquot, hrem]

/-- DIVS by 0 raises divideByZero and does nothing else. -/
theorem exec_divs_zero {rd rs : DReg} {s : State} (hready : Ready (.divs rd rs 0) s) :
    exec (.divs rd rs 0) s = .next { s with status := 4 } :=
  exec_ready hready

/-- Settles O25: the divisor 0 apart, the rule writes the integer quotient and remainder. -/
theorem divsClosedForm : Obligations.DivsClosedForm := by
  intro rd rs imm s hready
  have h8 : (s.dec rs).len.toNat ≤ 8 := length_of_ready hready rfl
  refine ⟨?_, fun himm => ⟨?_, (Nat.div_le_self ..).trans_lt (mag_lt _ h8)⟩⟩
  · by_cases himm : imm = 0
    · subst himm
      exact exec_divs_zero hready
    · rw [if_neg himm, exec_ready hready, commandRule, divScalar_of_ne_zero h8 himm]
      rfl
  · exact (Nat.mod_lt _ (toNat_pos_of_ne_zero himm)).trans imm.isLt

/-! ## ADJE: the exponent byte (R458) -/

/-- The exponent is the lowest byte of a record's image, and the rest of the image does not depend on it (R301). -/
theorem encodeImage_with_exp (d : Dec) (e : BitVec 8) :
    encodeImage { d with exp := e } = (encodeImage d).extractLsb' 8 152 ++ e :=
  congrArg (· ++ e) BitVec.extractLsb'_append_eq_left.symm

/-- Settles O26: the three outcomes of the exponent step, the last one on the image. -/
theorem adjeStepsWithinTheRange : Obligations.AdjeStepsWithinTheRange := by
  intro rd rs k s hgate hvalid e
  rw [exec_of_uncounted hgate rfl rfl (by simpa [operandsOf, State.sourceValid] using hvalid), commandRule]
  rcases stepExp_cases (s.dec rs) k with ⟨hover, h⟩ | ⟨hunder, h⟩ | ⟨hlow, hhigh, h⟩ <;> rw [h]
  · rw [if_pos hover]
    rfl
  · rw [if_neg (by omega), if_pos hunder]
    rfl
  · rw [if_neg (by omega), if_neg (by omega)]
    have himage : encodeImage { s.dec rs with exp := BitVec.ofInt 8 e } =
        (s.d.get rs).extractLsb' 8 152 ++ BitVec.ofInt 8 e := by
      rw [encodeImage_with_exp, State.dec, encodeImage_decodeImage]
      rfl
    rw [← himage]
    rfl

/-! ## The integer laws on the registers (R457) -/

/-- An integer below 2^128 is written whole, with the sign of the old record. -/
theorem withInteger_of_fits {d : Dec} {v : Nat} (h8 : d.len.toNat ≤ 8) (hv : v < 2 ^ (16 * (d.len.toNat + 1)))
    (hfit : v < 2 ^ 128) : ∃ x, d.withInteger v = .ok x ∧ x.mag = v ∧ x.neg = d.neg ∧ x.len.toNat ≤ 8 := by
  obtain ⟨hL, hvL⟩ := carriedLength_bounds h8 hv hfit
  exact ⟨_, if_neg (not_le.mpr hfit), mag_withMag d le_rfl hL hvL, rfl,
    (d.withMag_len v (carriedLength d.len.toNat v) (hL.trans (by decide))).trans_le hL⟩

/-- The end of MULS and of ADDS over the integers: the integer and the sign in the register, or overflow alone. -/
theorem finish_withInteger_laws (s : State) (rd : DReg) {d : Dec} {v : Nat} (h8 : d.len.toNat ≤ 8)
    (hv : v < 2 ^ (16 * (d.len.toNat + 1))) :
    let t := s.finish rd (d.withInteger v)
    t.status ≠ 1 ∧ t.status ≠ 2 ∧ (v < 2 ^ 128 → t.status = 0 ∧ (t.dec rd).mag = v ∧ (t.dec rd).neg = d.neg) ∧
      (2 ^ 128 ≤ v → t = { s with status := 3 }) := by
  intro t
  by_cases hover : 2 ^ 128 ≤ v
  · have ht : t = { s with status := 3 } := (finish_withInteger s rd d v).trans (if_pos hover)
    rw [ht]
    exact ⟨by simp, by simp, fun hfit => absurd hover (not_le.mpr hfit), fun _ => rfl⟩
  · obtain ⟨x, hx, hmag, hneg, -⟩ := withInteger_of_fits h8 hv (not_le.mp hover)
    have ht : t = s.succeed rd x := congrArg (s.finish rd) hx
    rw [ht, State.dec_succeed_same]
    exact ⟨by simp, by simp, fun _ => ⟨rfl, hmag, hneg⟩, fun h => absurd h hover⟩

/-- The quotient's record holds the integer quotient with the least length, and keeps the sign. -/
theorem divScalar_ok {d : Dec} (h8 : d.len.toNat ≤ 8) {v : Word} (hv : v ≠ 0) :
    ∃ q, d.divScalar v = .ok (q, BitVec.ofNat 16 (d.mag % v.toNat)) ∧ q.mag = d.mag / v.toNat ∧ q.neg = d.neg ∧
      q.len.toNat = nwords (d.mag / v.toNat) ∧ q.len.toNat ≤ 8 := by
  have hlt : d.mag / v.toNat < 2 ^ (16 * d.len.toNat) := (Nat.div_le_self ..).trans_lt (mag_lt d h8)
  have hfit : d.mag / v.toNat < 2 ^ 128 := (Nat.div_le_self ..).trans_lt (mag_lt_two_pow_128 d h8)
  have hle : nwords (d.mag / v.toNat) ≤ d.len.toNat := (nwords_le_iff hfit _).mpr hlt
  have hlen := d.withMag_len (d.mag / v.toNat) d.len.toNat (L := nwords (d.mag / v.toNat)) (by omega)
  exact ⟨_, divScalar_of_ne_zero h8 hv, mag_withMag d hle h8 ((nwords_le_iff hfit _).mp le_rfl), rfl, hlen,
    hlen.trans_le (hle.trans h8)⟩

/-- DIVS by a divisor other than 0: the quotient in the register and the remainder in REM. -/
theorem exec_divs_of_ne_zero {rd rs : DReg} {v : Word} {s : State} (hgate : s.faultLatched = false)
    (hvalid : s.isValid rs = true) (h8 : (s.dec rs).len.toNat ≤ 8) (hv : v ≠ 0) :
    ∃ q, exec (.divs rd rs v) s =
        .next ((s.succeed rd q).writeRem (BitVec.ofNat 16 ((s.dec rs).mag % v.toNat))) ∧
      q.mag = (s.dec rs).mag / v.toNat ∧ q.neg = (s.dec rs).neg ∧ q.len.toNat = nwords ((s.dec rs).mag / v.toNat) ∧
      q.len.toNat ≤ 8 := by
  obtain ⟨q, hq, hlaws⟩ := divScalar_ok h8 hv
  refine ⟨q, ?_, hlaws⟩
  rw [exec_ready (ready_of_counted rfl rfl rfl hgate hvalid h8), commandRule, hq]
  rfl

theorem State.isValid_succeed_same (s : State) (rd : DReg) (x : Dec) : (s.succeed rd x).isValid rd = true :=
  s.isValid_writeImage_same rd (encodeImage x)

/-- The register after a DIVS. -/
theorem State.dec_succeed_writeRem (s : State) (rd : DReg) (q : Dec) (rm : Word) :
    ((s.succeed rd q).writeRem rm).dec rd = q := s.dec_succeed_same rd q

/-- A division undoes a multiplication by the same scalar, with remainder 0 and the least length. -/
theorem exec_divs_of_product {rx rz : DReg} {v : Word} {t : State} {m : Nat} (hgate : t.faultLatched = false)
    (hvalid : t.isValid rx = true) (h8 : (t.dec rx).len.toNat ≤ 8) (hmag : (t.dec rx).mag = m * v.toNat) (hv : v ≠ 0) :
    ∃ u, exec (.divs rz rx v) t = .next u ∧ (u.dec rz).mag = m ∧ u.rem = 0 ∧ (u.dec rz).len.toNat = nwords m := by
  obtain ⟨q, hexec, hqmag, -, hqlen, -⟩ := exec_divs_of_ne_zero (rd := rz) hgate hvalid h8 hv
  rw [hmag, Nat.mul_div_cancel _ (toNat_pos_of_ne_zero hv)] at hqmag hqlen
  refine ⟨_, hexec, ?_, ?_, ?_⟩
  · rw [State.dec_succeed_writeRem, hqmag]
  · rw [State.writeRem_rem, hmag, Nat.mul_mod_left]
    rfl
  · rw [State.dec_succeed_writeRem, hqlen]

/-- The round trip of R457: where MULS ended with STATUS 0, DIVS by the same scalar gives the old magnitude back. -/
theorem exec_divs_of_successful_muls {rx rz : DReg} {s : State} {d : Dec} {v : Word} (hgate : s.faultLatched = false)
    (h8 : d.len.toNat ≤ 8) (hv : v ≠ 0) (hstatus : (s.finish rx (d.withInteger (d.mag * v.toNat))).status = 0) :
    ∃ u, exec (.divs rz rx v) (s.finish rx (d.withInteger (d.mag * v.toNat))) = .next u ∧ (u.dec rz).mag = d.mag ∧
      u.rem = 0 ∧ (u.dec rz).len.toNat = nwords d.mag := by
  have hprod : d.mag * v.toNat < 2 ^ (16 * (d.len.toNat + 1)) := mul_scalar_lt (mag_lt d h8) v
  obtain ⟨-, -, -, hover⟩ := finish_withInteger_laws s rx h8 hprod
  have hfit : d.mag * v.toNat < 2 ^ 128 := by
    by_contra h
    have hoverflow : (3 : BitVec 32) = 0 := by rwa [hover (not_lt.mp h)] at hstatus
    exact absurd hoverflow (by decide)
  obtain ⟨x, hx, hmag, -, hx8⟩ := withInteger_of_fits h8 hprod hfit
  rw [hx, State.finish]
  have hdec : (s.succeed rx x).dec rx = x := s.dec_succeed_same rx x
  exact exec_divs_of_product (t := s.succeed rx x) hgate (s.isValid_succeed_same rx x) (by rwa [hdec])
    (by rw [hdec, hmag]) hv

/-- Settles O27: each command over the integers; the round trip from the register that a successful MULS leaves. -/
theorem scalarPrimitivesObeyIntegerLaws : Obligations.ScalarPrimitivesObeyIntegerLaws := by
  intro rx ry imm s hgate hvalid h8 m v
  have hm : m < 2 ^ (16 * (s.dec ry).len.toNat) := mag_lt _ h8
  have himm (hv : v ≠ 0) : imm ≠ 0 := fun h => hv (congrArg BitVec.toNat h)
  refine ⟨⟨_, exec_muls_withInteger (ready_of_counted rfl rfl rfl hgate hvalid h8), ?_⟩,
    ⟨_, exec_adds_withInteger (ready_of_counted rfl rfl rfl hgate hvalid h8),
      finish_withInteger_laws s rx h8 (add_scalar_lt hm imm)⟩, ?_⟩
  · obtain ⟨hloss, hunder, hfits, hover⟩ := finish_withInteger_laws s rx h8 (mul_scalar_lt hm imm)
    refine ⟨hloss, hunder, hfits, hover, fun hstatus hv rz => ?_⟩
    obtain ⟨u, hexec, hmag, hrem, hlen⟩ := exec_divs_of_successful_muls (rz := rz) hgate h8 (himm hv) hstatus
    exact ⟨u, hexec, hmag, hrem, hlen, fun hne => hlen.trans_lt ((nwords_mag_le _ h8).lt_of_ne' hne)⟩
  · by_cases hzero : imm = 0
    · subst hzero
      exact ⟨_, exec_divs_zero (ready_of_counted rfl rfl rfl hgate hvalid h8), by simp, by simp,
        fun hv => absurd rfl (himm hv)⟩
    · obtain ⟨q, hexec, hqmag, hqneg, -, -⟩ := exec_divs_of_ne_zero (rd := rx) hgate hvalid h8 hzero
      refine ⟨_, hexec, by simp, by simp, fun hv => ?_⟩
      have hrem : m % v < v := Nat.mod_lt m (Nat.pos_of_ne_zero hv)
      have hword : (BitVec.ofNat 16 (m % v)).toNat = m % v := Nat.mod_eq_of_lt (hrem.trans imm.isLt)
      rw [State.dec_succeed_writeRem, State.writeRem_rem, hqmag, hword]
      exact ⟨(Nat.div_add_mod m v).symm, hrem, hqneg⟩

/-! ## Dividing by ten until nothing is left (R456) -/

/-- One DIVS by 10 in place: the register stays ready, with a tenth of the magnitude and the least length. -/
theorem performOp_div10 {rd : DReg} {s : State} (h : Nat) (hgate : s.faultLatched = false) (hvalid : s.isValid rd = true)
    (h8 : (s.dec rd).len.toNat ≤ 8) :
    ∃ t, performOp ⟨h, .issue (encode (.divs rd rd 10))⟩ s = .next t ∧ t.faultLatched = false ∧ t.isValid rd = true ∧
      (t.dec rd).len.toNat ≤ 8 ∧ (t.dec rd).mag = (s.dec rd).mag / 10 ∧
      (t.dec rd).len.toNat = nwords ((s.dec rd).mag / 10) := by
  obtain ⟨q, hexec, hmag, -, hlen, hq8⟩ :=
    exec_divs_of_ne_zero (rd := rd) (v := 10) hgate hvalid h8 (by decide)
  refine ⟨_, (hostIssue_of_decode (decode_encode rfl) s).trans hexec, hgate, s.isValid_succeed_same rd q, ?_⟩
  rw [State.dec_succeed_writeRem]
  exact ⟨hq8, hmag, hlen⟩

/-- A positive number of such divisions leaves the least length of the magnitude divided by that power of ten. -/
theorem performAll_div10 {rd : DReg} {s : State} (h n : Nat) (hgate : s.faultLatched = false)
    (hvalid : s.isValid rd = true) (h8 : (s.dec rd).len.toNat ≤ 8) :
    ∃ t, performAll (List.replicate (n + 1) ⟨h, .issue (encode (.divs rd rd 10))⟩) s = .next t ∧
      t.faultLatched = false ∧ (t.dec rd).len.toNat = nwords ((s.dec rd).mag / 10 ^ (n + 1)) := by
  induction n generalizing s with
  | zero =>
    obtain ⟨t, hop, htgate, -, -, -, hlen⟩ := performOp_div10 h hgate hvalid h8
    refine ⟨t, ?_, htgate, by rwa [zero_add, pow_one]⟩
    simp only [List.replicate_succ, List.replicate_zero, performAll, hop]
  | succ n ih =>
    obtain ⟨t, hop, htgate, htvalid, ht8, htmag, -⟩ := performOp_div10 h hgate hvalid h8
    obtain ⟨u, hall, hugate, hlen⟩ := ih htgate htvalid ht8
    refine ⟨u, ?_, hugate, ?_⟩
    · rw [List.replicate_succ, performAll, hop]
      exact hall
    · rw [hlen, htmag, Nat.div_div_eq_div_mul, ← pow_succ']

/-- Settles O28: 10^39 is above 2^128, so nothing is left of the magnitude after 39 divisions. -/
theorem divisionByTenEndsIn39Steps : Obligations.DivisionByTenEndsIn39Steps := by
  intro rd h s hgate hvalid h8
  obtain ⟨t, hall, htgate, hlen⟩ := performAll_div10 h 38 hgate hvalid h8
  have hzero : (s.dec rd).mag / 10 ^ (38 + 1) = 0 :=
    Nat.div_eq_of_lt ((mag_lt_two_pow_128 _ h8).trans (by norm_num))
  rw [hzero] at hlen
  exact ⟨t, hall, BitVec.eq_of_toNat_eq hlen, htgate⟩

end Sys2Proof.Machine
end

section
/-! SUPPORT. The normalizer COMPACT, its record field by field (spec/42_normalizer.md rules R501, R502, R505, R506), the
NaN pattern in the results of commands (R503), and the writers of the compact flag (R504). -/

namespace Sys2Proof.Machine

/-! ## Magnitudes and the NaN pattern (R9, R10, R11) -/

/-- The n lowest words of a list hold its integer modulo their size (R9). -/
theorem wordsValue_take (p : List Word) {n : Nat} (hn : n ≤ p.length) :
    wordsValue (p.take n) = wordsValue p % wordBase ^ n := by
  conv_lhs => rw [← wordsOf_wordsValue p, take_wordsOf hn, wordsValue_wordsOf]

/-- Only the integer 0 needs no word (R10). -/
@[simp] theorem nwords_eq_zero_iff (v : Nat) : nwords v = 0 ↔ v = 0 := by
  rw [nwords, mantWords, digitCount]
  split <;> simp [*]

/-- Without a word the magnitude is 0 (R9). -/
theorem mag_of_len_zero {d : Dec} (h : d.len.toNat = 0) : d.mag = 0 := by
  rw [Dec.mag, Dec.active, h]
  rfl

/-- The NaN pattern, with its length as a number (R11). -/
theorem isNaN_iff (d : Dec) : d.isNaN = true ↔ d.len.toNat = 0 ∧ d.neg = true := by
  rw [Dec.isNaN, decide_eq_true_iff, ← BitVec.toNat_inj]
  rfl

/-! ## The compacted record (R501) -/

/-- The NaN pattern passes through COMPACT (R503). -/
theorem compacted_of_nan {d : Dec} (h : d.isNaN = true) : d.compacted = d := if_pos h

theorem compacted_exp (d : Dec) : d.compacted.exp = d.exp := by
  unfold Dec.compacted
  split <;> rfl

theorem compacted_w (d : Dec) : d.compacted.w = d.w := by
  unfold Dec.compacted
  split <;> rfl

theorem compacted_cmp {d : Dec} (h : d.isNaN = false) : d.compacted.cmp = true := by rw [compacted_of_not_nan h]

/-- A zero magnitude is made non-negative, and any other keeps its sign. -/
theorem compacted_neg {d : Dec} (h : d.isNaN = false) : d.compacted.neg = (d.neg && decide (d.mag ≠ 0)) := by
  simp [compacted_of_not_nan h]

theorem compacted_len {d : Dec} (h8 : d.len.toNat ≤ 8) (h : d.isNaN = false) :
    d.compacted.len.toNat = nwords d.mag := by
  have hle := nwords_mag_le d h8
  rw [compacted_of_not_nan h]
  exact Nat.mod_eq_of_lt (by omega)

/-- The words that COMPACT drops are zero, so the magnitude stays. -/
theorem compacted_mag {d : Dec} (h8 : d.len.toNat ≤ 8) : d.compacted.mag = d.mag := by
  cases h : d.isNaN with
  | true => rw [compacted_of_nan h]
  | false =>
    have hle : nwords d.mag ≤ d.active.length := by
      rw [length_active d h8]
      exact nwords_mag_le d h8
    have hfits : d.mag < wordBase ^ nwords d.mag := by
      rw [wordBase_pow]
      exact (nwords_le_iff (mag_lt_two_pow_128 d h8) _).mp le_rfl
    calc d.compacted.mag = wordsValue (d.active.take (nwords d.mag)) := congrArg wordsValue (active_compacted h8 h)
      _ = d.mag % wordBase ^ nwords d.mag := wordsValue_take _ hle
      _ = d.mag := Nat.mod_eq_of_lt hfits

theorem compacted_len_le {d : Dec} (h8 : d.len.toNat ≤ 8) : d.compacted.len.toNat ≤ 8 := by
  cases h : d.isNaN with
  | true => rwa [compacted_of_nan h]
  | false => exact (compacted_len h8 h).trans_le ((nwords_mag_le d h8).trans h8)

/-- COMPACT makes no NaN: where it leaves no word it clears the sign (R503). -/
theorem compacted_isNaN {d : Dec} (h8 : d.len.toNat ≤ 8) : d.compacted.isNaN = d.isNaN := by
  cases h : d.isNaN with
  | true => rwa [compacted_of_nan h]
  | false =>
    rw [Bool.eq_false_iff, Ne, isNaN_iff, compacted_len h8 h, compacted_neg h, nwords_eq_zero_iff]
    simp +contextual

/-- COMPACT finds nothing left to do in its own result (R502). -/
theorem compacted_compacted {d : Dec} (h8 : d.len.toNat ≤ 8) : d.compacted.compacted = d.compacted := by
  cases h : d.isNaN with
  | true => rw [compacted_of_nan h, compacted_of_nan h]
  | false =>
    have hnan : d.compacted.isNaN = false := (compacted_isNaN h8).trans h
    rw [compacted_of_not_nan hnan, compacted_mag h8, compacted_of_not_nan h]
    simp

/-- The number of a record that has one (R12). -/
theorem value_of_not_nan {d : Dec} (h8 : d.len.toNat ≤ 8) (h : d.isNaN = false) :
    d.value = some ((if d.neg then -1 else 1) * (d.mag : ℚ) * (10 : ℚ) ^ d.expInt) :=
  if_neg (by simp [h, h8])

/-- COMPACT keeps the number: the magnitude, the exponent, and the sign of what is not zero (R12, R505). -/
theorem value_compacted {d : Dec} (h8 : d.len.toNat ≤ 8) : d.compacted.value = d.value := by
  cases h : d.isNaN with
  | true => rw [compacted_of_nan h]
  | false =>
    have hnan : d.compacted.isNaN = false := (compacted_isNaN h8).trans h
    rw [value_of_not_nan (compacted_len_le h8) hnan, value_of_not_nan h8 h, Dec.expInt, Dec.expInt, compacted_exp,
      compacted_mag h8, compacted_neg h]
    by_cases hmag : d.mag = 0 <;> simp [hmag]

/-! ## COMPACT as a command -/

theorem State.image_succeed_same (s : State) (rd : DReg) (x : Dec) : (s.succeed rd x).image rd = encodeImage x :=
  s.image_writeImage_same rd (encodeImage x)

theorem exec_compact {rd rs : DReg} {s : State} (hready : Ready (.compact rd rs) s) :
    exec (.compact rd rs) s = .next (s.succeed rd (s.dec rs).compacted) := exec_ready hready

/-- Settles O30: the fields of the compacted record, and the least length of its magnitude. -/
theorem compactReducesTheLength : Obligations.CompactReducesTheLength := by
  intro rd rs s hready d
  have h8 : d.len.toNat ≤ 8 := length_of_ready hready rfl
  have hfit : d.mag < 2 ^ 128 := mag_lt_two_pow_128 d h8
  refine ⟨d.compacted, exec_compact hready, fun hnan => compacted_of_nan (decide_eq_true hnan), fun hnot => ?_⟩
  have hnan : d.isNaN = false := decide_eq_false hnot
  have hlen : d.compacted.len.toNat = nwords d.mag := compacted_len h8 hnan
  refine ⟨compacted_w d, compacted_exp d, compacted_rsv d, compacted_cmp hnan, fun hzero => ?_, fun hmag => ?_,
    compacted_mag h8, ?_, fun L hL => ?_⟩
  · simp [compacted_neg hnan, hzero]
  · simp [compacted_neg hnan, hmag]
  · rw [hlen]
    exact (nwords_le_iff hfit _).mp le_rfl
  · rw [hlen]
    exact (nwords_le_iff hfit L).mpr hL

/-- Settles O31: the result is ready to be compacted again, and its record is its own compaction. -/
theorem compactIsIdempotent : Obligations.CompactIsIdempotent := by
  intro ra rb rc s hready
  have ⟨hgate, _⟩ := hready
  have h8 : (s.dec ra).len.toNat ≤ 8 := length_of_ready hready rfl
  have hdec : (s.succeed rb (s.dec ra).compacted).dec rb = (s.dec ra).compacted := s.dec_succeed_same rb _
  have hagain : Ready (.compact rc rb) (s.succeed rb (s.dec ra).compacted) :=
    ready_of_counted rfl rfl rfl hgate (s.isValid_succeed_same rb _) (by rw [hdec]; exact compacted_len_le h8)
  refine ⟨_, _, exec_compact hready, exec_compact hagain, ?_⟩
  rw [State.image_succeed_same, State.image_succeed_same, hdec, compacted_compacted h8]

/-- Settles O32: the number of the compacted record. -/
theorem compactKeepsTheNumber : Obligations.CompactKeepsTheNumber := by
  intro rd rs s hready
  refine ⟨_, exec_compact hready, ?_⟩
  rw [State.dec_succeed_same, value_compacted (length_of_ready hready rfl)]

/-! ## Equality of decimals (R506) -/

/-- The triple a host compares, read from the record itself. -/
theorem triple_of_not_nan {d : Dec} (h8 : d.len.toNat ≤ 8) (h : d.isNaN = false) :
    d.triple = (d.neg && decide (d.mag ≠ 0), d.expInt, d.mag) := by
  rw [Dec.triple, compacted_neg h, compacted_mag h8, Dec.expInt, compacted_exp, Dec.expInt]

/-- Settles O33: the triples hold the exponent, the magnitude, and the sign masked by the magnitude not being zero. -/
theorem equalityIsOfNormalizedTriples : Obligations.EqualityIsOfNormalizedTriples := by
  intro a b ha8 hb8 ha hb
  rw [Dec.sameDecimal, decide_eq_true_iff, triple_of_not_nan ha8 ha, triple_of_not_nan hb8 hb, Prod.mk.injEq,
    Prod.mk.injEq, and_rotate]
  refine and_congr_right fun _ => and_congr_right fun hmag => ?_
  rw [← hmag]
  by_cases hzero : a.mag = 0 <;> simp [hzero]

/-! ## The NaN pattern in results (R503) -/

/-- A result of MULS or ADDS has no words only where the operand had none and the integer is 0. -/
theorem carriedLength_eq_zero_iff (n v : Nat) : carriedLength n v = 0 ↔ n = 0 ∧ v = 0 := by
  unfold carriedLength
  split
  · next h =>
    refine ⟨fun hn => ⟨hn, ?_⟩, And.left⟩
    rw [hn] at h
    exact Nat.lt_one_iff.mp h
  · next h =>
    refine ⟨fun hn => absurd hn (Nat.succ_ne_zero n), ?_⟩
    rintro ⟨-, rfl⟩
    exact absurd (Nat.two_pow_pos _) h

/-- A sum is NaN exactly where the operand is and the scalar is 0: any other scalar makes it one word long (R453). -/
theorem addScalar_isNaN_iff {d x : Dec} {v : Word} (h8 : d.len.toNat ≤ 8) (h : d.addScalar v = .ok x) :
    x.isNaN = true ↔ d.isNaN = true ∧ v = 0 := by
  rw [addScalar_eq_withInteger h8, Dec.withInteger] at h
  obtain ⟨-, hx⟩ := (ite_eq_iff.mp h).resolve_left (by simp)
  cases hx
  have hbound : carriedLength d.len.toNat (d.mag + v.toNat) ≤ 15 := by
    unfold carriedLength
    split <;> omega
  have hlen := d.withMag_len (d.mag + v.toNat) (carriedLength d.len.toNat (d.mag + v.toNat)) hbound
  have hzero : v.toNat = 0 ↔ v = 0 := BitVec.toNat_inj (y := 0)
  rw [isNaN_iff, isNaN_iff, hlen, carriedLength_eq_zero_iff, Dec.withMag_neg, Nat.add_eq_zero_iff, hzero]
  constructor
  · rintro ⟨⟨hd, -, hv⟩, hneg⟩
    exact ⟨⟨hd, hneg⟩, hv⟩
  · rintro ⟨⟨hd, hneg⟩, hv⟩
    exact ⟨⟨hd, mag_of_len_zero hd, hv⟩, hneg⟩

/-- The record of CVTU64 is NaN exactly for a negative zero magnitude (R417). -/
theorem decOfMagnitude_isNaN_iff (a : BitVec 64) (e : BitVec 8) (n : Bool) :
    (decOfMagnitude a e n).isNaN = true ↔ a = 0 ∧ n = true := by
  obtain ⟨hlen, -⟩ := decOfMagnitude_len a e n
  have hzero : a.toNat = 0 ↔ a = 0 := BitVec.toNat_inj (y := 0)
  rw [isNaN_iff, hlen, nwords_eq_zero_iff, hzero]
  rfl

/-- DIVS by a divisor other than 0 ends in NaN exactly where the operand is negative and the quotient 0 (R455). -/
theorem exec_divs_isNaN_iff {rd rs : DReg} {v : Word} {s : State} (hgate : s.faultLatched = false)
    (hvalid : s.isValid rs = true) (h8 : (s.dec rs).len.toNat ≤ 8) (hv : v ≠ 0) :
    ∃ t, exec (.divs rd rs v) s = .next t ∧
      ((t.dec rd).isNaN = true ↔ (s.dec rs).neg = true ∧ (s.dec rs).mag < v.toNat) := by
  obtain ⟨q, hexec, -, hneg, hlen, -⟩ := exec_divs_of_ne_zero (rd := rd) hgate hvalid h8 hv
  refine ⟨_, hexec, ?_⟩
  rw [State.dec_succeed_writeRem, isNaN_iff, hlen, nwords_eq_zero_iff,
    Nat.div_eq_zero_iff_lt (toNat_pos_of_ne_zero hv), hneg, and_comm]

/-- Settles O34: each command by the NaN law of the record it writes; a division by 0 does not succeed. -/
theorem whichResultsAreTheNanPattern : Obligations.WhichResultsAreTheNanPattern := by
  intro rd rs imm s hgate
  refine ⟨fun hvalid h8 => ⟨?_, ?_, ?_, ?_⟩, fun hvalid e n => ?_⟩
  · refine ⟨_, exec_ready (ready_of_counted rfl rfl rfl hgate hvalid h8), fun hstatus => ?_⟩
    obtain ⟨x, hx, hdec⟩ := dec_finish_of_status_zero (mulScalar_ne_noError _ _) hstatus
    obtain ⟨-, -, -, -, hnan⟩ := mulScalar_ok h8 hx
    rw [commandRule, hdec, hnan]
  · refine ⟨_, exec_ready (ready_of_counted rfl rfl rfl hgate hvalid h8), fun hstatus => ?_⟩
    obtain ⟨x, hx, hdec⟩ := dec_finish_of_status_zero (addScalar_ne_noError _ _) hstatus
    rw [commandRule, hdec]
    exact addScalar_isNaN_iff h8 hx
  · by_cases hzero : imm = 0
    · subst hzero
      exact ⟨_, exec_divs_zero (ready_of_counted rfl rfl rfl hgate hvalid h8),
        fun hstatus => absurd ((CalcError.status_eq_zero_iff .divideByZero).mp hstatus) (by decide)⟩
    · obtain ⟨t, hexec, hnan⟩ := exec_divs_isNaN_iff (rd := rd) hgate hvalid h8 hzero
      exact ⟨t, hexec, fun _ => hnan⟩
  · refine ⟨_, exec_compact (ready_of_counted rfl rfl rfl hgate hvalid h8), ?_⟩
    rw [State.dec_succeed_same, compacted_isNaN h8]
  · refine ⟨_, exec_of_uncounted hgate rfl rfl (by simpa [operandsOf, State.sourceValid] using hvalid), ?_⟩
    rw [commandRule, State.dec_succeed_same]
    exact decOfMagnitude_isNaN_iff s.arg e n

/-! ## The compact flag of a result (R504) -/

/-- A field write that names neither the flag nor the control byte keeps the flag (R430). -/
theorem setField_cmp (d : Dec) {f : Field} (v : BitVec 32) (hcmp : f ≠ .cmp) (hctrl : f ≠ .ctrl) :
    (setField d f v).cmp = d.cmp := by
  cases f with
  | cmp => exact absurd rfl hcmp
  | ctrl => exact absurd rfl hctrl
  | exp | len | neg | rsv | isNaN | w i => rfl

theorem withCarry_cmp {d x : Dec} {p : List Word} {c : Word} (h : d.withCarry p c = .ok x) : x.cmp = false := by
  rcases withCarry_cases d p c with ⟨-, hx⟩ | ⟨-, -, hx⟩ | ⟨-, -, hx⟩ <;> rw [hx] at h <;> cases h <;>
    exact Dec.withResult_cmp ..

/-- The end of MULS, ADDS and ADJE with STATUS 0: the flag of the rule's record. -/
theorem finish_cmp {s : State} {rd : DReg} {o : Except CalcError Dec} {b : Bool} (herr : o ≠ .error .noError)
    (hok : ∀ x, o = .ok x → x.cmp = b) (hstatus : (s.finish rd o).status = 0) :
    ((s.finish rd o).dec rd).cmp = b := by
  obtain ⟨x, hx, hdec⟩ := dec_finish_of_status_zero herr hstatus
  rw [hdec, hok x hx]

/-- The end of DIVS with STATUS 0: the quotient's record, with the flag 0. -/
theorem finishDivision_cmp {s : State} {rd : DReg} {d : Dec} {v : Word}
    (hstatus : (s.finishDivision rd (d.divScalar v)).status = 0) :
    ((s.finishDivision rd (d.divScalar v)).dec rd).cmp = false := by
  rcases divScalar_cases d v with ⟨-, hdiv⟩ | ⟨-, hdiv⟩ <;> rw [hdiv] at hstatus ⊢
  · exact absurd ((CalcError.status_eq_zero_iff .divideByZero).mp hstatus) (by decide)
  · rw [State.dec_finishDivision_ok, Dec.withResult_cmp]

/-- Settles O37: the flag of the record each command's rule writes. -/
theorem compactFlagFollowsItsWriters : Obligations.CompactFlagFollowsItsWriters := by
  intro i s t hready h hstatus
  rw [exec_ready hready] at h
  cases h
  cases i with
  | zero rd => exact congrArg Dec.cmp (s.dec_succeed_same rd _)
  | cvtu64 rd e n => exact congrArg Dec.cmp (s.dec_succeed_same rd _)
  | muls rd rs v => exact finish_cmp (mulScalar_ne_noError _ _) (fun _ hx => withCarry_cmp hx) hstatus
  | adds rd rs v => exact finish_cmp (addScalar_ne_noError _ _) (fun _ hx => withCarry_cmp hx) hstatus
  | divs rd rs v => exact finishDivision_cmp hstatus
  | mov rd rs => exact congrArg Dec.cmp (s.dec_writeImage_same rd _)
  | adje rd rs k => exact finish_cmp (stepExp_ne_noError _ _) (fun x hx => by rw [(stepExp_ok hx).2]) hstatus
  | xfld rs f => rfl
  | sfld rd f | sfldi rd f v =>
    exact fun hcmp hctrl => (congrArg Dec.cmp (s.dec_succeed_same rd _)).trans (setField_cmp _ _ hcmp hctrl)
  | compact rd rs =>
    intro hnan
    have h8 : (s.dec rs).len.toNat ≤ 8 := length_of_ready hready rfl
    rw [commandRule, State.dec_succeed_same, compacted_mag h8]
    exact ⟨compacted_cmp hnan, compacted_len h8 hnan⟩

end Sys2Proof.Machine
end

section
/-! SUPPORT. The two channels by which a command reports that it did not succeed, STATUS and FAULT: the first event of
R608's order, alone (spec/60_exceptions.md). -/

namespace Sys2Proof.Machine

/-! ## The checks before a command, in R608's order -/

/-- With a fault latched an issued word is not decoded and changes nothing (R604). -/
theorem hostIssue_of_latched {s : State} (hgate : s.faultLatched = true) (w : Cmd) : hostIssue w s = .next s :=
  if_pos hgate

/-- The operand check fails at a register that is not valid (R606). -/
theorem sources_all_eq_false_iff (s : State) (sources : List Source) :
    sources.all s.sourceValid = false ↔ ∃ x ∈ sources, s.sourceValid x = false := by
  simp only [List.all_eq_false, Bool.not_eq_true]

/-- The length check fails at a counted operand longer than eight words (R607). -/
theorem lengthOk_eq_false_iff (s : State) (counted : Option DReg) :
    s.lengthOk counted = false ↔ ∃ r ∈ counted, 8 < (s.dec r).len.toNat := by
  cases counted <;> simp [State.lengthOk]

/-- A legal command with an operand register that is not valid takes UNINITIALIZED_OPERAND (R606). -/
theorem exec_of_invalid_operand {i : Instr} {x : Source} {s : State} (hgate : s.faultLatched = false) (hwf : i.wf = true)
    (hx : x ∈ operandsOf i) (hinvalid : s.sourceValid x = false) :
    exec i s = .next (s.raiseFault .uninitializedOperand (encode i)) := by
  have hall : (operandsOf i).all s.sourceValid = false := (sources_all_eq_false_iff s _).mpr ⟨x, hx, hinvalid⟩
  rw [exec_eq_execute, State.execute, hgate, hwf, hall]
  rfl

/-- A legal command with valid operands that counts more than eight words takes INVALID_LENGTH (R607). -/
theorem exec_of_long_operand {i : Instr} {r : DReg} {s : State} (hgate : s.faultLatched = false) (hwf : i.wf = true)
    (hvalid : ∀ x ∈ operandsOf i, s.sourceValid x = true) (hr : countedOperand i = some r)
    (hlong : 8 < (s.dec r).len.toNat) : exec i s = .next (s.raiseFault .invalidLength (encode i)) := by
  have hlength : s.lengthOk (countedOperand i) = false := (lengthOk_eq_false_iff s _).mpr ⟨r, hr, hlong⟩
  rw [exec_eq_execute, State.execute, hgate, hwf, List.all_eq_true.mpr hvalid, hlength]
  rfl

/-- A legal command that counts no words is ready when its operands are valid. -/
theorem ready_of_uncounted {i : Instr} {s : State} (hgate : s.faultLatched = false) (hwf : i.wf = true)
    (hcounted : countedOperand i = none) (hvalid : ∀ x ∈ operandsOf i, s.sourceValid x = true) : Ready i s :=
  ⟨hgate, hwf, hvalid, by simp [hcounted]⟩

/-! ## The rule of a command: one CalculationError alone, or a success (R602) -/

/-- The rule of a command records one of three errors in STATUS and nothing else, or ends with noError. -/
theorem commandRule_error_or_success (i : Instr) (s : State) :
    (∃ e, (e = .underflow ∨ e = .overflow ∨ e = .divideByZero) ∧ commandRule i s = s.raiseCalc e) ∨
    (commandRule i s).status = 0 := by
  rcases commandRule_cases i s with herr | ⟨rd, P, -, h⟩ | ⟨rd, rs, v, P, rm, -, h⟩ | ⟨rs, f, v, -, h⟩
  · exact .inl herr
  all_goals exact .inr (congrArg State.status h)

/-- The rule of a command, failing or not, does not touch the fault channel. -/
theorem commandRule_fault (i : Instr) (s : State) :
    (commandRule i s).fault = s.fault ∧ (commandRule i s).faultcmd = s.faultcmd := by
  rcases commandRule_cases i s with ⟨e, -, h⟩ | ⟨rd, P, -, h⟩ | ⟨rd, rs, v, P, rm, -, h⟩ | ⟨rs, f, v, -, h⟩ <;> rw [h] <;>
    exact ⟨rfl, rfl⟩

/-- A ready command is not refused. -/
theorem exec_accepted {i : Instr} {s : State} (hready : Ready i s) :
    ∃ t, exec i s = .next t ∧ t.fault = s.fault ∧ t.faultcmd = s.faultcmd :=
  ⟨_, exec_ready hready, commandRule_fault i s⟩

/-- Settles O41: the closed forms of MULS, ADDS and DIVS and the range of ADJE; the other commands end with noError. -/
theorem calculationErrorsByCommand : Obligations.CalculationErrorsByCommand := by
  intro i s hready
  cases i with
  | muls rd rs v =>
    obtain ⟨hexec, -⟩ := mulsClosedForm rd rs v s hready
    exact ⟨_, hexec, apply_ite State.status ..⟩
  | adds rd rs v =>
    obtain ⟨hexec, -⟩ := addsClosedForm rd rs v s hready
    exact ⟨_, hexec, apply_ite State.status ..⟩
  | divs rd rs v =>
    obtain ⟨hexec, -⟩ := divsClosedForm rd rs v s hready
    exact ⟨_, hexec, apply_ite State.status ..⟩
  | adje rd rs k =>
    obtain ⟨hgate, -, hvalid, -⟩ := hready
    refine ⟨_, adjeStepsWithinTheRange rd rs k s hgate (hvalid (.d rs) (List.mem_singleton_self _)), ?_⟩
    dsimp only
    split_ifs <;> rfl
  | zero | mov | cvtu64 | xfld | sfld | sfldi | compact => exact ⟨_, exec_ready hready, rfl⟩

/-- Settles O42: a rule that does not end with noError is a CalculationError alone. -/
theorem calculationErrorWritesOnlyStatus : Obligations.CalculationErrorWritesOnlyStatus := by
  intro i s t hready h hstatus
  rw [exec_ready hready] at h
  cases h
  obtain ⟨hgate, -⟩ := hready
  rcases commandRule_error_or_success i s with ⟨e, -, hrule⟩ | hzero
  · rw [hrule]
    exact ⟨rfl, hgate⟩
  · exact absurd hzero hstatus

/-! ## What a command and an issued word can report (R601, R605, R609) -/

/-- FAULT after a fault is 1, 2 or 3 (R605). -/
theorem FaultCause.fault_cases (c : FaultCause) : c.fault = 1 ∨ c.fault = 2 ∨ c.fault = 3 := by
  cases c <;> decide

/-- Settles O48: a fault is FAULT and FAULTCMD alone, and a rule an error alone or a success. -/
theorem everyEventIsPrecise : Obligations.EveryEventIsPrecise := by
  intro i s t h
  have hfault (c : FaultCause) (hgate : s.faultLatched = false) (ht : t = s.raiseFault c (encode i)) :
      s.faultLatched = false ∧ (t.fault = 1 ∨ t.fault = 2 ∨ t.fault = 3) ∧
        t = { s with fault := t.fault, faultcmd := encode i } := by
    subst ht
    exact ⟨hgate, c.fault_cases, rfl⟩
  rcases exec_cases h with hclosed | ⟨hgate, -, ht⟩ | ⟨hgate, -, -, ht⟩ | ⟨hgate, -, -, -, ht⟩ | ⟨hgate, -, -, -, rfl⟩
  · exact .inl hclosed
  · exact .inr (.inl (hfault _ hgate ht))
  · exact .inr (.inl (hfault _ hgate ht))
  · exact .inr (.inl (hfault _ hgate ht))
  · rcases commandRule_error_or_success i s with ⟨e, he, hrule⟩ | hzero
    · refine .inr (.inr (.inl ⟨hgate, ?_, by rw [hrule]; rfl⟩))
      rw [hrule]
      exact he.imp (congrArg CalcError.status) (Or.imp (congrArg CalcError.status) (congrArg CalcError.status))
    · exact .inr (.inr (.inr ⟨hgate, hzero, commandRule_fault i s⟩))

/-- An issued word leaves the fault channel as it was, or takes one fault: an illegal word, a legal command with an operand
that is not valid, or one that counts more than eight words (R605). -/
theorem hostIssue_fault_cases {w : Cmd} {s t : State} (h : hostIssue w s = .next t) :
    (t.fault = s.fault ∧ t.faultcmd = s.faultcmd) ∨
    (t = s.raiseFault .illegalCommand w ∧ ∃ e, decode w = .error e) ∨
    (t = s.raiseFault .uninitializedOperand w ∧ ∃ i, decode w = .ok i ∧ ∃ x ∈ operandsOf i, s.sourceValid x = false) ∨
    (t = s.raiseFault .invalidLength w ∧
      ∃ i, decode w = .ok i ∧ ∃ r ∈ countedOperand i, 8 < (s.dec r).len.toNat) := by
  rcases hostIssue_cases w s with ⟨-, hgate⟩ | ⟨-, hillegal, hfault⟩ | ⟨-, i, hdec, hexec⟩
  · rw [hgate] at h; cases h
    exact .inl ⟨rfl, rfl⟩
  · rw [hfault] at h; cases h
    exact .inr (.inl ⟨rfl, hillegal⟩)
  · obtain ⟨rfl, hwf⟩ := encode_and_wf_of_decode hdec
    rw [hexec] at h
    rcases exec_cases h with
      ⟨-, rfl⟩ | ⟨-, hill, -⟩ | ⟨-, -, hinvalid, ht⟩ | ⟨-, -, -, hlong, ht⟩ | ⟨-, -, -, -, rfl⟩
    · exact .inl ⟨rfl, rfl⟩
    · cases hwf.symm.trans hill
    · exact .inr (.inr (.inl ⟨ht, i, hdec, (sources_all_eq_false_iff s _).mp hinvalid⟩))
    · exact .inr (.inr (.inr ⟨ht, i, hdec, (lengthOk_eq_false_iff s _).mp hlong⟩))
    · exact .inl (commandRule_fault i s)

/-- Settles O44: the cases of an issued word that do not leave the fault channel as it was. -/
theorem faultRecordsCauseAndWord : Obligations.FaultRecordsCauseAndWord := by
  intro h w s t ht hchanged
  rcases hostIssue_fault_cases ht with ⟨hfault, hcmd⟩ | ⟨rfl, e, he⟩ | ⟨rfl, hreads⟩ | ⟨rfl, hcounts⟩
  · exact absurd hchanged (by simp [hfault, hcmd])
  · exact ⟨1, rfl, .inl ⟨rfl, fun i hi => by cases hi.symm.trans he⟩⟩
  · exact ⟨2, rfl, .inr (.inl ⟨rfl, hreads⟩)⟩
  · exact ⟨3, rfl, .inr (.inr ⟨rfl, hcounts⟩)⟩

/-! ## Which commands are refused (R606, R607) -/

/-- Settles O45: `operandsOf` command by command, once for a register that is not valid and once for readiness. -/
theorem uninitializedOperandsAreRefused : Obligations.UninitializedOperandsAreRefused := by
  intro rd rs f e n v s hgate refused accepted
  have hrefused {i : Instr} (x : Source) (hwf : i.wf = true) (hx : x ∈ operandsOf i) (hinvalid : s.sourceValid x = false) :
      refused i := exec_of_invalid_operand hgate hwf hx hinvalid
  have haccepted {i : Instr} (hwf : i.wf = true) (hc : countedOperand i = none)
      (hvalid : ∀ x ∈ operandsOf i, s.sourceValid x = true) : accepted i :=
    exec_accepted (ready_of_uncounted hgate hwf hc hvalid)
  refine ⟨fun hrs => ?_, fun hf hrd => ?_, fun harg => ?_, ?_, fun harg => ?_, fun hf hrd => ?_, fun hrs => ?_⟩
  · have hreads {i : Instr} (hwf : i.wf = true) (hops : operandsOf i = [.d rs]) : refused i :=
      hrefused (.d rs) hwf (by simp [hops]) hrs
    exact ⟨hreads rfl rfl, hreads rfl rfl, hreads rfl rfl, hreads rfl rfl, hreads rfl rfl, hreads rfl rfl, hreads rfl rfl⟩
  · have hw : f.writable = true := f.writable_eq_true_iff.mpr hf
    exact ⟨hrefused (.d rd) hw (by simp [operandsOf]) hrd, hrefused (.d rd) hw (by simp [operandsOf]) hrd⟩
  · exact ⟨hrefused .arg rfl (by simp [operandsOf]) harg,
      fun hf => hrefused .arg (f.writable_eq_true_iff.mpr hf) (by simp [operandsOf]) harg⟩
  · exact haccepted rfl rfl (by simp [operandsOf])
  · exact haccepted rfl rfl (by simpa [operandsOf, State.sourceValid] using harg)
  · have hw : f.writable = true := f.writable_eq_true_iff.mpr hf
    exact ⟨haccepted hw rfl (by simpa [operandsOf, State.sourceValid] using hrd),
      fun harg => haccepted hw rfl (by simpa [operandsOf, State.sourceValid] using ⟨hrd, harg⟩)⟩
  · have hreads {i : Instr} (hwf : i.wf = true) (hops : operandsOf i = [.d rs]) (hc : countedOperand i = none) :
        accepted i :=
      haccepted hwf hc (by simpa [hops, State.sourceValid] using hrs)
    refine ⟨hreads rfl rfl rfl, hreads rfl rfl rfl, hreads rfl rfl rfl, fun h8 => ?_⟩
    have hcounts {i : Instr} (hwf : i.wf = true) (hops : operandsOf i = [.d rs]) (hc : countedOperand i = some rs) :
        accepted i := exec_accepted (ready_of_counted hwf hops hc hgate hrs h8)
    exact ⟨hcounts rfl rfl rfl, hcounts rfl rfl rfl, hcounts rfl rfl rfl, hcounts rfl rfl rfl⟩

/-- Settles O46: the four commands with a counted operand, and the others, which check no length. -/
theorem lengthAboveEightIsRefused : Obligations.LengthAboveEightIsRefused := by
  intro rd rs f v s hgate hrs hlong refused accepted
  have hcounts {i : Instr} (hwf : i.wf = true) (hops : operandsOf i = [.d rs]) (hc : countedOperand i = some rs) :
      refused i :=
    exec_of_long_operand hgate hwf (by simpa [hops, State.sourceValid] using hrs) hc hlong
  obtain ⟨-, -, -, -, -, -, haccepted⟩ := uninitializedOperandsAreRefused rd rs f 0 false v s hgate
  obtain ⟨-, -, -, -, -, hcomposed, -⟩ := uninitializedOperandsAreRefused rs rs f 0 false v s hgate
  obtain ⟨hmov, hxfld, hadje, -⟩ := haccepted hrs
  exact ⟨hcounts rfl rfl rfl, hcounts rfl rfl rfl, hcounts rfl rfl rfl, hcounts rfl rfl rfl, hmov, hxfld, hadje,
    fun hf => hcomposed hf hrs⟩

/-- Settles O47: one law for each event of R608's order; the errors of a rule are those of `calculationErrorsByCommand`. -/
theorem firstEventInOrderIsReported : Obligations.FirstEventInOrderIsReported := by
  intro h w s refused
  refine ⟨fun hgate => ?_, fun hgate hill => ?_, fun hgate i hdec => ?_, fun rd rs hgate hvalid hlen => ?_⟩
  · exact hostIssue_of_latched hgate w
  · rcases hostIssue_cases w s with ⟨hclosed, -⟩ | ⟨-, -, hs⟩ | ⟨-, i, hdec, -⟩
    · cases hclosed.symm.trans hgate
    · exact hs
    · exact absurd hdec (hill i)
  · obtain ⟨rfl, hwf⟩ := encode_and_wf_of_decode hdec
    simp only [refused, performOp_issue, hostIssue_of_decode hdec]
    refine ⟨fun ⟨x, hx, hinvalid⟩ => exec_of_invalid_operand hgate hwf hx hinvalid,
      fun hvalid ⟨r, hr, hlong⟩ => exec_of_long_operand hgate hwf hvalid hr hlong, fun hready => ?_⟩
    obtain ⟨t, hexec, hstatus⟩ := calculationErrorsByCommand i s hready
    obtain ⟨u, hu, hfault, hcmd⟩ := exec_accepted hready
    cases hu.symm.trans hexec
    refine ⟨t, hexec, hfault, hcmd, or_iff_not_imp_left.mpr fun hne => ?_⟩
    obtain ⟨hframe, -⟩ := calculationErrorWritesOnlyStatus i s t hready hexec hne
    refine ⟨hframe, ?_⟩
    cases i with
    | zero | mov | cvtu64 | xfld | sfld | sfldi | compact => exact hne hstatus
    | muls | adds | divs =>
      dsimp only at hstatus
      split at hstatus
      · exact hstatus
      · exact absurd hstatus hne
    | adje =>
      dsimp only at hstatus
      split_ifs at hstatus
      · exact .inl hstatus
      · exact .inr hstatus
      · exact absurd hstatus hne
  · exact exec_of_long_operand hgate rfl (by simpa [operandsOf, State.sourceValid] using hvalid) rfl
      (by rw [hlen]; decide)

/-! ## Behind the gate (R604, R612) -/

/-- The ids 0 to 9 each name a register (R202). -/
theorem HostReg.ofId_of_lt {id : Nat} (h : id < 10) : ∃ r, HostReg.ofId id = some r := by
  interval_cases id <;> exact ⟨_, rfl⟩

/-- With a fault latched no operation but HostReset changes FAULT, FAULTCMD, STATUS, REM or FOUT. -/
theorem performOp_latched_frame {p : PortOp} {s t : State} (hgate : s.faultLatched = true) (hop : p.op ≠ .reset)
    (h : performOp p s = .next t) :
    t.fault = s.fault ∧ t.faultcmd = s.faultcmd ∧ t.status = s.status ∧ t.rem = s.rem ∧ t.fout = s.fout := by
  rcases performOp_cases p s with ⟨id, -, hp⟩ | ⟨id, v, -, hp⟩ | ⟨w, -, hp⟩ | ⟨hreset, -⟩
  · rw [hp, hostRead] at h
    split at h <;> cases h
    next r _ =>
      rcases readReg_cases s p.host r with ⟨-, hread⟩ | ⟨-, hread⟩ <;> rw [hread] <;> exact ⟨rfl, rfl, rfl, rfl, rfl⟩
  · rw [hp] at h
    rcases hostWrite_cases id v s with ⟨r, P, -, -, hwr⟩ | ⟨a, -, -, hwr⟩ | hwr | ⟨e, hwr⟩ <;> rw [hwr] at h <;> cases h <;>
      exact ⟨rfl, rfl, rfl, rfl, rfl⟩
  · rw [hp, hostIssue_of_latched hgate] at h
    cases h
    exact ⟨rfl, rfl, rfl, rfl, rfl⟩
  · exact absurd hreset hop

/-- Settles O43: the gate, the laws of a read and of a write, the frame above, and HostReset. -/
theorem gateHoldsUntilReset : Obligations.GateHoldsUntilReset := by
  intro s hgate h
  refine ⟨hostIssue_of_latched hgate, performOp_read (known := true) rfl rfl h,
    performOp_read (known := true) rfl rfl h, fun id hid => ?_, fun r P => hostWrite_image (HostReg.ofId_code r) P s, fun a => hostWrite_magnitude (id := 4) rfl a s,
    fun op t hop ht => ?_, ⟨_, rfl, s.faultLatched_hostReset⟩⟩
  · obtain ⟨r, hr⟩ := HostReg.ofId_of_lt hid
    refine ⟨_, performOp_read hr (Bool.not_not _).symm h, ?_⟩
    split <;> simp
  · obtain ⟨hfault, hcmd, hstatus, -⟩ := performOp_latched_frame hgate hop ht
    exact ⟨hfault, hcmd, hstatus⟩

/-- Settles O49: each operation keeps the five registers, so the gate stays closed for the next. -/
theorem firstFaultIsKept : Obligations.FirstFaultIsKept := by
  intro ops
  induction ops with
  | nil =>
    intro s t _ _ h
    cases h
    exact ⟨rfl, rfl, rfl, rfl, rfl⟩
  | cons p ps ih =>
    intro s t hgate hops h
    obtain ⟨hp, hps⟩ := List.forall_mem_cons.mp hops
    rw [performAll] at h
    cases hu : performOp p s with
    | fault | refused =>
      rw [hu] at h
      cases h
    | next u =>
      rw [hu] at h
      obtain ⟨hfault, hcmd, hstatus, hrem, hfout⟩ := performOp_latched_frame hgate hp hu
      have hrest := ih u t ((State.faultLatched_congr hfault).trans hgate) hps h
      rwa [hfault, hcmd, hstatus, hrem, hfout] at hrest

end Sys2Proof.Machine
end

section
/-! SUPPORT. Power-on, HostReset and what a host meets after them: every command ends, a reset block reads as unspecified, and
a block whose registers all hold a value keeps them valid (spec/70_reset_and_hazards.md). -/

namespace Sys2Proof.Machine

/-- Settles O56: the fields of the state itself. -/
theorem powerOnState : Obligations.PowerOnState :=
  ⟨rfl, rfl, rfl, rfl, rfl, rfl⟩

/-! ## Every command ends (R707) -/

/-- A command ends in a next state: its rule or a fault, behind its checks. -/
theorem exec_ends (i : Instr) (s : State) : ∃ t, exec i s = .next t :=
  ⟨_, exec_eq_execute i s⟩

/-- An issued word ends too: the gate and an illegal word each have a next state of their own. -/
theorem hostIssue_ends (w : Cmd) (s : State) : ∃ t, hostIssue w s = .next t := by
  rcases hostIssue_cases w s with ⟨-, hgate⟩ | ⟨-, -, hfault⟩ | ⟨-, i, -, hexec⟩
  · exact ⟨s, hgate⟩
  · exact ⟨_, hfault⟩
  · rw [hexec]
    exact exec_ends i s

/-- Settles O40: a command behind its checks, and a word behind the gate and the decoder. -/
theorem everyCommandEnds : Obligations.EveryCommandEnds :=
  ⟨exec_ends, fun _ w s => hostIssue_ends w s⟩

/-! ## After HostReset (R701, R702) -/

/-- After HostReset no operand register is valid. -/
@[simp] theorem State.sourceValid_hostReset (s : State) (x : Source) : s.hostReset.sourceValid x = false := by
  cases x with
  | d r => exact Bank.get_all false r
  | arg => rfl

/-- A read of an unspecified register answers a draw and counts it (R205). -/
theorem performOp_read_unspecified {id : Nat} {r : HostReg} {s : State} (hid : HostReg.ofId id = some r)
    (hr : s.unspecified r = true) (h : Nat) :
    performOp ⟨h, .read id⟩ s = .next (s.drawn.answer h r (drawOf s.draws s r)) :=
  performOp_read (known := false) hid hr h

/-- Settles O55: the fields of the reset state, the law of an unspecified read, and the refusal of any command that has an
operand register, since none is valid. -/
theorem hostResetClearsTheControlState : Obligations.HostResetClearsTheControlState := by
  intro h s
  refine ⟨s.hostReset, rfl, rfl, rfl, rfl, rfl, rfl, rfl, rfl, rfl, rfl, rfl, fun r => ?_, ?_, ?_, ?_, fun i hwf hreads => ?_⟩
  · have hunspecified : s.hostReset.unspecified (.d r) = true := congrArg (!·) (s.sourceValid_hostReset (.d r))
    exact performOp_read_unspecified (HostReg.ofId_code r) hunspecified h
  · exact performOp_read_unspecified rfl rfl h
  · rw [BitVec.ofNat_toNat]
    exact performOp_read_unspecified rfl rfl h
  · exact performOp_read_unspecified rfl rfl h
  · obtain ⟨x, hx⟩ := List.exists_mem_of_ne_nil _ hreads
    exact exec_of_invalid_operand s.faultLatched_hostReset hwf hx (s.sourceValid_hostReset x)

/-! ## A block brought up by R703 -/

/-- What an operation other than HostReset can do to the block: nothing to its registers, one whole register written and
valid, or what an issued word does. -/
theorem performOp_next_cases {p : PortOp} {s t : State} (hop : p.op ≠ .reset) (h : performOp p s = .next t) :
    (∃ n answers, t = { s with draws := n, replies := answers }) ∨ (∃ r P, t = s.writeImage r P) ∨ (∃ a, t = s.writeArg a) ∨
    ∃ w, hostIssue w s = .next t := by
  rcases performOp_cases p s with ⟨id, -, hp⟩ | ⟨id, v, -, hp⟩ | ⟨w, -, hp⟩ | ⟨hreset, -⟩
  · rw [hp, hostRead] at h
    split at h <;> cases h
    next r _ =>
      refine .inl ?_
      rcases readReg_cases s p.host r with ⟨-, hread⟩ | ⟨-, hread⟩ <;> exact ⟨_, _, hread⟩
  · rw [hp] at h
    rcases hostWrite_cases id v s with ⟨r, P, -, -, hwr⟩ | ⟨a, -, -, hwr⟩ | hwr | ⟨e, hwr⟩ <;> rw [hwr] at h <;> cases h
    · exact .inr (.inl ⟨r, P, rfl⟩)
    · exact .inr (.inr (.inl ⟨a, rfl⟩))
    · exact .inl ⟨_, _, rfl⟩
  · exact .inr (.inr (.inr ⟨w, hp.symm.trans h⟩))
  · exact absurd hreset hop

/-- The block is brought up when every register that a command may read is valid. -/
theorem State.booted_iff (s : State) : s.booted ↔ ∀ x, s.sourceValid x = true := by
  constructor
  · rintro ⟨hd, harg⟩ (r | _)
    · exact (congrArg (Bank.get · r) hd).trans (Bank.get_all true r)
    · exact harg
  · exact fun hvalid => ⟨Bank.ext_get fun r => (hvalid (.d r)).trans (Bank.get_all true r).symm, hvalid .arg⟩

/-- A command clears no valid bit (R106). -/
theorem exec_keeps_sourceValid {i : Instr} {s t : State} (h : exec i s = .next t) {x : Source}
    (hx : s.sourceValid x = true) : t.sourceValid x = true := by
  obtain ⟨harg, hd⟩ := commandsOnlySetValidBits i s t h
  cases x with
  | d r => exact (hd r).elim (·.trans hx) (·.1)
  | arg => exact harg.trans hx

/-- An issued word clears none either: a closed gate and an illegal word touch no valid bit. -/
theorem hostIssue_keeps_sourceValid {w : Cmd} {s t : State} (h : hostIssue w s = .next t) {x : Source}
    (hx : s.sourceValid x = true) : t.sourceValid x = true := by
  rcases hostIssue_cases w s with ⟨-, hgate⟩ | ⟨-, -, hfault⟩ | ⟨-, i, -, hexec⟩
  · rw [hgate] at h; cases h
    exact hx
  · rw [hfault] at h; cases h
    cases x <;> exact hx
  · exact exec_keeps_sourceValid (hexec ▸ h) hx

/-- HostReset is the only operation that clears a valid bit (R106). -/
theorem performOp_keeps_sourceValid {p : PortOp} {s t : State} (hop : p.op ≠ .reset) (h : performOp p s = .next t)
    {x : Source} (hx : s.sourceValid x = true) : t.sourceValid x = true := by
  rcases performOp_next_cases hop h with ⟨n, answers, rfl⟩ | ⟨r, P, rfl⟩ | ⟨a, rfl⟩ | ⟨w, hw⟩
  · cases x <;> exact hx
  · cases x with
    | arg => exact hx
    | d q =>
      rcases eq_or_ne q r with rfl | hq
      · exact s.isValid_writeImage_same q P
      · exact (s.isValid_writeImage_other r q P hq).trans hx
  · cases x with
    | d q => exact hx
    | arg => rfl
  · exact hostIssue_keeps_sourceValid hw hx

/-- Without a HostReset, UNINITIALIZED_OPERAND comes only from an operand register that is not valid (R605, R606). -/
theorem performOp_fault_ne_two {p : PortOp} {s t : State} (hop : p.op ≠ .reset) (h : performOp p s = .next t)
    (hvalid : ∀ x, s.sourceValid x = true) (hfault : s.fault ≠ 2) : t.fault ≠ 2 := by
  rcases performOp_next_cases hop h with ⟨n, answers, rfl⟩ | ⟨r, P, rfl⟩ | ⟨a, rfl⟩ | ⟨w, hw⟩
  · exact hfault
  · exact hfault
  · exact hfault
  · rcases hostIssue_fault_cases hw with ⟨hkept, -⟩ | ⟨rfl, -⟩ | ⟨-, i, -, x, -, hinvalid⟩ | ⟨rfl, -⟩
    · rwa [hkept]
    · exact (by decide : FaultCause.illegalCommand.fault ≠ 2)
    · cases (hvalid x).symm.trans hinvalid
    · exact (by decide : FaultCause.invalidLength.fault ≠ 2)

/-- What every operation of a list keeps, their run keeps. -/
theorem performAll_invariant {I : State → Prop} {ops : List PortOp}
    (hstep : ∀ p ∈ ops, ∀ s t, I s → performOp p s = .next t → I t) {s t : State} (hs : I s)
    (h : performAll ops s = .next t) : I t := by
  induction ops generalizing s with
  | nil =>
    cases h
    exact hs
  | cons p ps ih =>
    obtain ⟨hp, hps⟩ := List.forall_mem_cons.mp hstep
    rw [performAll] at h
    cases hu : performOp p s with
    | fault | refused =>
      rw [hu] at h
      cases h
    | next u =>
      rw [hu] at h
      exact ih hps (hp s u hs hu) h

/-- Settles O57: valid bits are kept, so no operation takes UNINITIALIZED_OPERAND. -/
theorem bootedBlockNeverReadsUnwritten : Obligations.BootedBlockNeverReadsUnwritten := by
  intro ops s t hbooted hfault hops h
  refine performAll_invariant (I := fun s => s.booted ∧ s.fault ≠ 2) (fun p hp s t ⟨hs, hf⟩ ht => ?_) ⟨hbooted, hfault⟩ h
  rw [State.booted_iff] at hs
  exact ⟨t.booted_iff.mpr fun x => performOp_keeps_sourceValid (hops p hp) ht (hs x),
    performOp_fault_ne_two (hops p hp) ht hs hf⟩

end Sys2Proof.Machine
end
